-- ==== Sys2Proof/Word.lean ====
section
/-! DEFINITION. The widths of the machine's values (`00_scope.md` R4, R13). Every value is unsigned (R14). -/

namespace Sys2Proof

/-- A byte, the addressable unit and the width of a general register (R4). -/
abbrev Byte := BitVec 8

/-- A 16-bit value: an instruction word, `I`, `PC`, a return address (R4). -/
abbrev Word := BitVec 16

/-- The 12-bit immediate address `nnn` (R71). -/
abbrev Addr12 := BitVec 12

/-- A 4-bit field used as a number 0 to 15: a key code, or the sprite height `n` (R71, R73). -/
abbrev Nibble := Fin 16

/-- The number of a general register, V0 to VF (R21): a 4-bit field, every value legal (R73). -/
abbrev Reg := Fin 16

/-- The flag register (R22). -/
abbrev VF : Reg := 15

end Sys2Proof
end

