-- ==== Sys2Proof/Config.lean ====
section
/-! DEFINITION. What is fixed for the life of one machine: the constants of `00_scope.md` R4, the configuration
parameters of R5 to R11 with the spec's defaults, and the FREE VALUES, opaque constants of which no value can be proved. -/

namespace Sys2Proof.Config

/-! ### Constants (R4) -/

/-- Bytes of memory; addresses are 0x000 to 0xFFF. -/
abbrev memSize : Nat := 4096
/-- Where LOAD puts the program and where the first fetch happens. -/
abbrev loadBase : Nat := 0x200
/-- The first byte of the font block. -/
abbrev fontBase : Nat := 0x050
/-- Bytes of the font block: 16 glyphs of 5 bytes. -/
abbrev fontSize : Nat := 80
/-- Columns of the framebuffer. -/
abbrev fbWidth : Nat := 64
/-- Rows of the framebuffer. -/
abbrev fbHeight : Nat := 32
/-- The largest image LOAD accepts, 0x200 to 0xFFF (R210). -/
abbrev maxRomSize : Nat := 3584

/-! ### Parameters (R5 to R11) -/

/-- `SHIFT_SOURCE`: which register SHR and SHL shift (R7). -/
inductive ShiftSource where
  | vx
  | vy
  deriving DecidableEq, Repr, Inhabited

/-- `JUMP_OFFSET_REG`: which register JP V0,nnn adds (R8). -/
inductive JumpOffsetReg where
  | v0
  | vx
  deriving DecidableEq, Repr, Inhabited

/-- `ADD_I_FLAG`: whether ADD I,Vx writes VF (R9). -/
inductive AddIFlag where
  | on
  | off
  deriving DecidableEq, Repr, Inhabited

/-- `DECODE_MODE`: how strictly the dispatcher matches (R10, R76, R77). -/
inductive DecodeMode where
  | exact
  | table2
  deriving DecidableEq, Repr, Inhabited

/-- The configuration parameters, "resolved once at construction time": the argument of RESET (R260), never
changed by an instruction or by another operation. -/
structure Params where
  /-- `STACK_DEPTH` (R5), at least 1. -/
  stackDepth : Nat
  /-- `BATCH` (R6), at least 1. -/
  batch : Nat
  /-- `SHIFT_SOURCE` (R7). -/
  shiftSource : ShiftSource
  /-- `JUMP_OFFSET_REG` (R8). -/
  jumpOffsetReg : JumpOffsetReg
  /-- `ADD_I_FLAG` (R9). -/
  addIFlag : AddIFlag
  /-- `DECODE_MODE` (R10). -/
  decodeMode : DecodeMode
  /-- `FONT_DATA` (R11), exactly 80 bytes. -/
  fontData : List Byte
  deriving DecidableEq, Repr, Inhabited

/-- The default of `FONT_DATA`, glyphs 0 to 7 (R40). PRESUMED (log 9): the spec itself marks these bytes as general
knowledge and forbids a claim that rests on them without saying so. -/
def defaultFontLow : List Byte :=
  [0xF0, 0x90, 0x90, 0x90, 0xF0] ++ [0x20, 0x60, 0x20, 0x20, 0x70] ++
  [0xF0, 0x10, 0xF0, 0x80, 0xF0] ++ [0xF0, 0x10, 0xF0, 0x10, 0xF0] ++
  [0x90, 0x90, 0xF0, 0x10, 0x10] ++ [0xF0, 0x80, 0xF0, 0x10, 0xF0] ++
  [0xF0, 0x80, 0xF0, 0x90, 0xF0] ++ [0xF0, 0x10, 0x20, 0x40, 0x40]

/-- The default of `FONT_DATA`, glyphs 8 to F (R40). PRESUMED (log 9). -/
def defaultFontHigh : List Byte :=
  [0xF0, 0x90, 0xF0, 0x90, 0xF0] ++ [0xF0, 0x90, 0xF0, 0x10, 0xF0] ++
  [0xF0, 0x90, 0xF0, 0x90, 0x90] ++ [0xE0, 0x90, 0xE0, 0x90, 0xE0] ++
  [0xF0, 0x80, 0x80, 0x80, 0xF0] ++ [0xE0, 0x90, 0x90, 0x90, 0xE0] ++
  [0xF0, 0x80, 0xF0, 0x80, 0xF0] ++ [0xF0, 0x80, 0xF0, 0x80, 0x80]

/-- The default of `FONT_DATA` (R40). -/
def defaultFont : List Byte := defaultFontLow ++ defaultFontHigh

/-- The defaults of R5 to R11. -/
def Params.default : Params where
  stackDepth := 16
  batch := 15
  shiftSource := .vx
  jumpOffsetReg := .v0
  addIFlag := .on
  decodeMode := .exact
  fontData := defaultFont

/-! ### Free values -/

/-- FREE VALUE. The byte of the n-th draw of RND (R12, R131): any byte, under no law (log 3). -/
opaque randomByte : Nat → Byte

/-- FREE VALUE. What a circumstance `c` leaves of a value `x` when the spec leaves the value unspecified: the state
after a fatal fault (R241, log 6) and memory after a failed LOAD (R210, log 18). -/
opaque unspecified {γ α : Type} [Inhabited α] : γ → α → α

end Sys2Proof.Config
end

