-- ==== Sys2Proof/Syntax.lean ====
section
/-! DEFINITION. The 34 instructions of `30_encoding.md` R75, one constructor for each row of the opcode table. A
register field is a `Reg`, `n` a `Nibble`, `nn` a `Byte`, `nnn` an `Addr12` (R71, R73): every value of every
field is legal (R236), so the types leave no operand to check. -/

namespace Sys2Proof

inductive Instr where
  /-- `00E0` CLS (R170). -/
  | cls
  /-- `00EE` RET (R100). -/
  | ret
  /-- `1nnn` JP nnn (R101). -/
  | jp (nnn : Addr12)
  /-- `2nnn` CALL nnn (R102). -/
  | call (nnn : Addr12)
  /-- `3xnn` SE Vx,nn (R103). -/
  | seImm (x : Reg) (nn : Byte)
  /-- `4xnn` SNE Vx,nn (R104). -/
  | sneImm (x : Reg) (nn : Byte)
  /-- `5xy0` SE Vx,Vy (R105). -/
  | seReg (x y : Reg)
  /-- `6xnn` LD Vx,nn (R120). -/
  | ldImm (x : Reg) (nn : Byte)
  /-- `7xnn` ADD Vx,nn (R121). -/
  | addImm (x : Reg) (nn : Byte)
  /-- `8xy0` LD Vx,Vy (R122). -/
  | ldReg (x y : Reg)
  /-- `8xy1` OR Vx,Vy (R123). -/
  | orReg (x y : Reg)
  /-- `8xy2` AND Vx,Vy (R124). -/
  | andReg (x y : Reg)
  /-- `8xy3` XOR Vx,Vy (R125). -/
  | xorReg (x y : Reg)
  /-- `8xy4` ADD Vx,Vy (R126). -/
  | addReg (x y : Reg)
  /-- `8xy5` SUB Vx,Vy (R127). -/
  | sub (x y : Reg)
  /-- `8xy6` SHR Vx (R129); y is encoded and matters under `SHIFT_SOURCE = VY` only. -/
  | shr (x y : Reg)
  /-- `8xy7` SUBN Vx,Vy (R128). -/
  | subn (x y : Reg)
  /-- `8xyE` SHL Vx (R130); y as in SHR. -/
  | shl (x y : Reg)
  /-- `9xy0` SNE Vx,Vy (R106). -/
  | sneReg (x y : Reg)
  /-- `Annn` LD I,nnn (R150). -/
  | ldI (nnn : Addr12)
  /-- `Bnnn` JP V0,nnn (R108). -/
  | jpV0 (nnn : Addr12)
  /-- `Cxnn` RND Vx,nn (R131). -/
  | rnd (x : Reg) (nn : Byte)
  /-- `Dxyn` DRW Vx,Vy,n (R171). -/
  | drw (x y : Reg) (n : Nibble)
  /-- `Ex9E` SKP Vx (R180). -/
  | skp (x : Reg)
  /-- `ExA1` SKNP Vx (R181). -/
  | sknp (x : Reg)
  /-- `Fx07` LD Vx,DT (R182). -/
  | ldVxDt (x : Reg)
  /-- `Fx0A` LD Vx,K (R185). -/
  | ldVxK (x : Reg)
  /-- `Fx15` LD DT,Vx (R183). -/
  | ldDtVx (x : Reg)
  /-- `Fx18` LD ST,Vx (R184). -/
  | ldStVx (x : Reg)
  /-- `Fx1E` ADD I,Vx (R151). -/
  | addI (x : Reg)
  /-- `Fx29` LD F,Vx (R152). -/
  | ldF (x : Reg)
  /-- `Fx33` LD B,Vx (R153). -/
  | ldB (x : Reg)
  /-- `Fx55` LD [I],Vx (R154). -/
  | storeRegs (x : Reg)
  /-- `Fx65` LD Vx,[I] (R155). -/
  | loadRegs (x : Reg)
  deriving DecidableEq, Repr

end Sys2Proof
end

