-- ==== Sys2Proof/WellFormed.lean ====
section
/-! DEFINITION. The checks on what enters the machine from outside. An `Instr` needs none: its fields are typed and
"every value of every field is legal" (`60_exceptions.md` R236), so every term of `Instr` is well-formed (log 21). What the driver
hands over can be ill-formed: the parameters of RESET (R5, R6, R11) and the image of LOAD (R210). -/

namespace Sys2Proof

/-- `STACK_DEPTH` is a positive integer (R5). -/
def Config.Params.depthOk (p : Config.Params) : Bool := 1 ≤ p.stackDepth

/-- `BATCH` is a positive integer (R6). -/
def Config.Params.batchOk (p : Config.Params) : Bool := 1 ≤ p.batch

/-- `FONT_DATA` is a list of exactly 80 bytes (R11). -/
def Config.Params.fontOk (p : Config.Params) : Bool := p.fontData.length = Config.fontSize

/-- The parameters RESET may be given (R5, R6, R11; the other parameters are enumerations). -/
def Config.Params.wf (p : Config.Params) : Bool := p.depthOk && p.batchOk && p.fontOk

/-- Whether LOAD accepts an image: no byte would land beyond 0xFFF (R210: at most 3584 bytes). -/
def Rom.fits (bytes : List Byte) : Bool := bytes.length ≤ Config.maxRomSize

end Sys2Proof
end

