-- ==== Sys2Proof/Decode.lean ====
section
/-! DEFINITION. The decoder of `30_encoding.md` R70 to R84, total on every word and on every list of bytes, and after it
the encoder. The dispatcher is the two-level table of R74, strict or not by `DECODE_MODE` (R76, R77). -/

namespace Sys2Proof

open Config (DecodeMode)

/-- Why bytes are no instruction. -/
inductive Reject where
  /-- Fewer than two bytes are left, and every instruction is one 16-bit word (R70). -/
  | truncated
  /-- The word selects no instruction (R78). -/
  | unknownInstruction (w : Word)
  deriving DecidableEq, Repr

/-! ### Fields (R13, R71) -/

/-- `w[15:12]`, the primary selector. -/
def nibble1 (w : Word) : BitVec 4 := w.extractLsb' 12 4
/-- `w[11:8]`, a register number. -/
def fieldX (w : Word) : Reg := (w.extractLsb' 8 4).toFin
/-- `w[7:4]`, a register number. -/
def fieldY (w : Word) : Reg := (w.extractLsb' 4 4).toFin
/-- `w[3:0]`. -/
def fieldN (w : Word) : Nibble := (w.extractLsb' 0 4).toFin
/-- `w[7:0]`. -/
def fieldNN (w : Word) : Byte := w.extractLsb' 0 8
/-- `w[11:0]`. -/
def fieldNNN (w : Word) : Addr12 := w.extractLsb' 0 12

/-! ### The secondary tables (R74, R75) -/

/-- Group 0x0, keyed by nn; under EXACT the x nibble must be 0 as well (R76), under TABLE2 it is ignored (R77). -/
def decodeGroup0 (mode : DecodeMode) (w : Word) : Except Reject Instr :=
  if mode = .exact ∧ fieldX w ≠ 0 then .error (.unknownInstruction w)
  else
    match (fieldNN w).toNat with
    | 0xE0 => .ok .cls
    | 0xEE => .ok .ret
    | _ => .error (.unknownInstruction w)

/-- Groups 0x5 and 0x9: under EXACT the n nibble must be 0 (R76), under TABLE2 it is ignored (R77). -/
def decodeIgnoringN (mode : DecodeMode) (w : Word) (i : Instr) : Except Reject Instr :=
  if mode = .exact ∧ fieldN w ≠ 0 then .error (.unknownInstruction w) else .ok i

/-- Group 0x8, keyed by n. -/
def decodeGroup8 (w : Word) : Except Reject Instr :=
  match (fieldN w).val with
  | 0x0 => .ok (.ldReg (fieldX w) (fieldY w))
  | 0x1 => .ok (.orReg (fieldX w) (fieldY w))
  | 0x2 => .ok (.andReg (fieldX w) (fieldY w))
  | 0x3 => .ok (.xorReg (fieldX w) (fieldY w))
  | 0x4 => .ok (.addReg (fieldX w) (fieldY w))
  | 0x5 => .ok (.sub (fieldX w) (fieldY w))
  | 0x6 => .ok (.shr (fieldX w) (fieldY w))
  | 0x7 => .ok (.subn (fieldX w) (fieldY w))
  | 0xE => .ok (.shl (fieldX w) (fieldY w))
  | _ => .error (.unknownInstruction w)

/-- Group 0xE, keyed by nn. -/
def decodeGroupE (w : Word) : Except Reject Instr :=
  match (fieldNN w).toNat with
  | 0x9E => .ok (.skp (fieldX w))
  | 0xA1 => .ok (.sknp (fieldX w))
  | _ => .error (.unknownInstruction w)

/-- Group 0xF, keyed by nn. -/
def decodeGroupF (w : Word) : Except Reject Instr :=
  match (fieldNN w).toNat with
  | 0x07 => .ok (.ldVxDt (fieldX w))
  | 0x0A => .ok (.ldVxK (fieldX w))
  | 0x15 => .ok (.ldDtVx (fieldX w))
  | 0x18 => .ok (.ldStVx (fieldX w))
  | 0x1E => .ok (.addI (fieldX w))
  | 0x29 => .ok (.ldF (fieldX w))
  | 0x33 => .ok (.ldB (fieldX w))
  | 0x55 => .ok (.storeRegs (fieldX w))
  | 0x65 => .ok (.loadRegs (fieldX w))
  | _ => .error (.unknownInstruction w)

/-! ### The dispatcher (R74, R83, R84) -/

/-- The instruction a word selects, or its rejection by name. It depends on the word and on `DECODE_MODE` only (R84). -/
def decode (mode : DecodeMode) (w : Word) : Except Reject Instr :=
  match (nibble1 w).toNat with
  | 0x0 => decodeGroup0 mode w
  | 0x1 => .ok (.jp (fieldNNN w))
  | 0x2 => .ok (.call (fieldNNN w))
  | 0x3 => .ok (.seImm (fieldX w) (fieldNN w))
  | 0x4 => .ok (.sneImm (fieldX w) (fieldNN w))
  | 0x5 => decodeIgnoringN mode w (.seReg (fieldX w) (fieldY w))
  | 0x6 => .ok (.ldImm (fieldX w) (fieldNN w))
  | 0x7 => .ok (.addImm (fieldX w) (fieldNN w))
  | 0x8 => decodeGroup8 w
  | 0x9 => decodeIgnoringN mode w (.sneReg (fieldX w) (fieldY w))
  | 0xA => .ok (.ldI (fieldNNN w))
  | 0xB => .ok (.jpV0 (fieldNNN w))
  | 0xC => .ok (.rnd (fieldX w) (fieldNN w))
  | 0xD => .ok (.drw (fieldX w) (fieldY w) (fieldN w))
  | 0xE => decodeGroupE w
  | 0xF => decodeGroupF w
  | _ => .error (.unknownInstruction w)

/-! ### Words and bytes (R53, R70, R82) -/

/-- Two bytes, the one at the lower address first, as a word: big-endian (R53). -/
def wordOfBytes (hi lo : Byte) : Word := hi ++ lo

/-- The byte of a word at the lower address (R53). -/
def highByte (w : Word) : Byte := w.extractLsb' 8 8

/-- The byte of a word at the higher address (R53). -/
def lowByte (w : Word) : Byte := w.extractLsb' 0 8

/-- A word as the memory image holds it (R82). -/
def wordBytes (w : Word) : List Byte := [highByte w, lowByte w]

/-- The first instruction of a list of bytes, with the bytes after it. -/
def decodeBytes (mode : DecodeMode) : List Byte → Except Reject (Instr × List Byte)
  | hi :: lo :: rest =>
    match decode mode (wordOfBytes hi lo) with
    | .ok i => .ok (i, rest)
    | .error e => .error e
  | _ => .error .truncated

/-- The opcode table's numbering of an instruction's bits is the word's own (R13): bit 0 is the word's least
significant bit. Bits above `nbits` are 0. -/
def tableWord (nbits w : Nat) : Word := BitVec.ofNat 16 (w % 2 ^ nbits)

/-- The instruction the decoder reads from a table word. The table's match and mask are those of `DECODE_MODE = EXACT`
(R76), so that mode reads them (log 16). -/
def decodeTableWord (nbits w : Nat) : Option Instr :=
  match decodeBytes .exact (wordBytes (tableWord nbits w)) with
  | .ok (i, _) => some i
  | .error _ => none

/-! ### The encoder (R72, R75) -/

/-- A register number or count as its four bits. -/
def nib (r : Fin 16) : BitVec 4 := BitVec.ofFin r

/-- Format XNN. -/
def formatXNN (op : BitVec 4) (x : Reg) (nn : Byte) : Word := op ++ nib x ++ nn

/-- Format NNN. -/
def formatNNN (op : BitVec 4) (nnn : Addr12) : Word := op ++ nnn

/-- Formats XY and XYN. -/
def formatXYN (op : BitVec 4) (x y : Reg) (n : BitVec 4) : Word := op ++ nib x ++ nib y ++ n

/-- The word of an instruction: its pattern in R75 with the fields in their places. -/
def encode : Instr → Word
  | .cls => 0x00E0
  | .ret => 0x00EE
  | .jp nnn => formatNNN 0x1 nnn
  | .call nnn => formatNNN 0x2 nnn
  | .seImm x nn => formatXNN 0x3 x nn
  | .sneImm x nn => formatXNN 0x4 x nn
  | .seReg x y => formatXYN 0x5 x y 0x0
  | .ldImm x nn => formatXNN 0x6 x nn
  | .addImm x nn => formatXNN 0x7 x nn
  | .ldReg x y => formatXYN 0x8 x y 0x0
  | .orReg x y => formatXYN 0x8 x y 0x1
  | .andReg x y => formatXYN 0x8 x y 0x2
  | .xorReg x y => formatXYN 0x8 x y 0x3
  | .addReg x y => formatXYN 0x8 x y 0x4
  | .sub x y => formatXYN 0x8 x y 0x5
  | .shr x y => formatXYN 0x8 x y 0x6
  | .subn x y => formatXYN 0x8 x y 0x7
  | .shl x y => formatXYN 0x8 x y 0xE
  | .sneReg x y => formatXYN 0x9 x y 0x0
  | .ldI nnn => formatNNN 0xA nnn
  | .jpV0 nnn => formatNNN 0xB nnn
  | .rnd x nn => formatXNN 0xC x nn
  | .drw x y n => formatXYN 0xD x y (nib n)
  | .skp x => formatXNN 0xE x 0x9E
  | .sknp x => formatXNN 0xE x 0xA1
  | .ldVxDt x => formatXNN 0xF x 0x07
  | .ldVxK x => formatXNN 0xF x 0x0A
  | .ldDtVx x => formatXNN 0xF x 0x15
  | .ldStVx x => formatXNN 0xF x 0x18
  | .addI x => formatXNN 0xF x 0x1E
  | .ldF x => formatXNN 0xF x 0x29
  | .ldB x => formatXNN 0xF x 0x33
  | .storeRegs x => formatXNN 0xF x 0x55
  | .loadRegs x => formatXNN 0xF x 0x65

end Sys2Proof
end

