-- ==== Sys2Proof/Machine/State.lean ====
section
/-! DEFINITION. The state of the machine: the twelve elements of `10_state.md` R20, the configuration parameters fixed at
RESET (R260), and four fields of the model's own (`iter`, `reports`, `draws`, `life`); the reasons a step can stop; the state after RESET. -/

namespace Sys2Proof.Machine

/-! ### Errors (`60_exceptions.md`) -/

/-- A fatal run-time fault, with the value it records (R230, D18). All three are the spec's own, so stopping on them is
exact; nothing is said of the state afterwards (R241), which is safe. RomTooLarge is the answer of LOAD and never of a
step (R235): see `Reply.romTooLarge`. -/
inductive Fault where
  /-- Raised by RET with `SP = 0` (R100, R232). Safe: the spec ends the run here. -/
  | stackUnderflow
  /-- Raised by CALL with `SP = STACK_DEPTH` (R102, R233). Safe: the spec ends the run here. -/
  | stackOverflow
  /-- Raised by the fetch, DRW, LD B,Vx, LD [I],Vx and LD Vx,[I] at an address above 0xFFF (R56, R57, R234), which
  it records. Safe: the spec ends the run here. -/
  | memoryOutOfBounds (addr : Nat)
  deriving DecidableEq, Repr

/-- What the model refuses: moves that the spec gives the driver no right to. -/
inductive Refusal where
  /-- An instruction that has no meaning in the model yet. Raised by `exec` only; safe. -/
  | notModelled (mnemonic : String)
  /-- STEP, SET_KEY or a read after LOAD answered RomTooLarge: "the VM is not started" (R210, U11). Raised by `step` and
  `perform`; safe. -/
  | notStarted
  /-- LOAD after a LOAD or after the first STEP (R210, D23, U11). Raised by `perform`; safe. -/
  | loadOutOfOrder
  /-- An operation of the driver while a STEP is in progress (R61, R213, U10). Raised by `perform`; safe. -/
  | operationDuringStep
  /-- RESET with parameters that R5, R6 or R11 rule out. Raised by `perform`; safe. -/
  | badParameters
  deriving DecidableEq, Repr

/-- The content of an UnknownInstruction report: the word and the address it was fetched from (R231, D18). -/
structure Report where
  word : Word
  addr : Nat
  deriving DecidableEq, Repr, Inhabited

/-! ### The elements of the state -/

/-- The register file: sixteen 8-bit cells (R21). -/
abbrev RegFile := Vector Byte 16

/-- `FB`: 32 rows of 64 one-bit cells, row 0 and column 0 first (R31). -/
abbrev Framebuffer := Vector (Vector Bool 64) 32

/-- `KEY`: sixteen booleans (R32). -/
abbrev Keypad := Vector Bool 16

/-- `MEM`, as the list of the cells that differ from their content after RESET, addresses rising (log 11). The
operations on it, and the canonical form, are in Machine/Ops.lean. -/
abbrev Memory := List Host.Cell

/-- `WAIT`: RUNNING or AWAITING_KEY(target register) (R33). -/
inductive Wait where
  | running
  | awaitingKey (t : Reg)
  deriving DecidableEq, Repr, Inhabited

/-- How far the machine's life has come: RESET, at most one LOAD, then STEPs (R200, R210). The model's own (log 5). -/
inductive Life where
  /-- After RESET. LOAD may come next. -/
  | constructed
  /-- After a successful LOAD. -/
  | loaded
  /-- After RomTooLarge: only RESET may come next. -/
  | loadFailed
  /-- After the first STEP has begun. -/
  | started
  deriving DecidableEq, Repr, Inhabited

/-- The state of the machine. -/
structure State where
  /-- `MEM` (R35). -/
  mem : Memory
  /-- `V` (R21). -/
  v : RegFile
  /-- `I` (R24). -/
  i : Word
  /-- `PC` (R25). -/
  pc : Word
  /-- The live cells of `STACK`, newest first; `SP` is their number (R28, log 7). -/
  stack : List Word
  /-- `DT` (R29). -/
  dt : Byte
  /-- `ST` (R30). -/
  st : Byte
  /-- `FB` (R31). -/
  fb : Framebuffer
  /-- `KEY` (R32). -/
  key : Keypad
  /-- `WAIT` (R33). -/
  wait : Wait
  /-- `FAULT`: `none` is NONE (R34, log 6). -/
  fault : Option Fault
  /-- The configuration parameters, fixed by RESET (R260, log 2). -/
  cfg : Config.Params
  /-- The model's own: iterations already run of the STEP in progress, 0 between STEPs (R201, log 1). -/
  iter : Nat
  /-- The model's own: the reports of the STEP in progress, or of the last one, oldest first (R201, log 4). -/
  reports : List Report
  /-- The model's own: how many free values have been taken, a random byte by each RND and one each time the spec leaves
  the machine unspecified (R12, R241, logs 3, 6). It never goes back, so no two of a run are the same one. -/
  draws : Nat
  /-- The model's own: how far the run has come (log 5). -/
  life : Life
  deriving DecidableEq, Repr, Inhabited

/-- `SP`, the number of addresses the stack holds (R28). -/
def State.sp (s : State) : Nat := s.stack.length

/-- The outcome of an instruction or of a step. -/
abbrev Result := Host.Outcome State Fault Refusal

/-- The state after RESET with parameters `p`: the table of R39, memory as R261 leaves it (nothing listed). -/
def State.resetWith (p : Config.Params) : State where
  mem := []
  v := Vector.replicate 16 0
  i := 0
  pc := 0x0200
  stack := []
  dt := 0
  st := 0
  fb := Vector.replicate 32 (Vector.replicate 64 false)
  key := Vector.replicate 16 false
  wait := .running
  fault := none
  cfg := p
  iter := 0
  reports := []
  draws := 0
  life := .constructed

/-- The machine right after RESET with the default parameters of R5 to R11 (R39). -/
def State.reset : State := State.resetWith Config.Params.default

end Sys2Proof.Machine
end

