-- ==== Sys2Proof/Machine/Ops.lean ====
section
/-! DEFINITION. The named operations over memory, registers, stack, framebuffer and latches that the meanings share;
raising a fault, and what it leaves (`20_memory.md`, `10_state.md`, `60_exceptions.md`). -/

namespace Sys2Proof.Machine

/-! ### Memory as a list of cells -/

/-- What an address reads as when nothing is listed for it: the content RESET gives it, `FONT_DATA` at 0x050 to 0x09F
and zero elsewhere (R39, R261). -/
def Memory.blank (font : List Byte) (a : Nat) : Byte :=
  if Config.fontBase ≤ a ∧ a < Config.fontBase + Config.fontSize then font.getD (a - Config.fontBase) 0 else 0

/-- The byte at an address. -/
def Memory.read (font : List Byte) : Memory → Nat → Byte
  | [], a => Memory.blank font a
  | (b, u) :: m, a => if b = a then u else Memory.read font m a

/-- The cells without the one at an address. -/
def Memory.erase (m : Memory) (a : Nat) : Memory := m.filter (fun c => c.1 ≠ a)

/-- A cell put where the rising order of addresses wants it. -/
def Memory.insert : Memory → Nat → Byte → Memory
  | [], a, x => [(a, x)]
  | (b, u) :: m, a, x => if a < b then (a, x) :: (b, u) :: m else (b, u) :: Memory.insert m a x

/-- Memory with one byte changed. Writing what the address reads as unlisted removes its cell, so that equal memories are
equal lists. -/
def Memory.write (font : List Byte) (m : Memory) (a : Nat) (x : Byte) : Memory :=
  if x = Memory.blank font a then m.erase a else (m.erase a).insert a x

/-- The canonical form: addresses strictly rising, all below 4096, no cell equal to what its address reads as
unlisted. -/
def Memory.wf (font : List Byte) (m : Memory) : Bool :=
  decide (m.Pairwise (fun c d => c.1 < d.1)) &&
    m.all (fun c => decide (c.1 < Config.memSize) && decide (c.2 ≠ Memory.blank font c.1))

/-! ### Faults -/

/-- A fatal fault ends the step: no state is saved, no handler is entered, no successor state is given (R240, R241).
This machine has no trap entry and no trap return (R240, R242). -/
def raise (f : Fault) : Result := .fault f

/-- The outcome of an instruction whose memory accesses may have faulted. -/
def finish : Except Fault State → Result
  | .ok s => .next s
  | .error f => raise f

/-- The machine the driver holds after a fatal fault: `FAULT` latched (R206), every other element of the block, and the
reports of that STEP, unspecified (R241, U15, log 6). The parameters stay (R260) and the STEP is over. DESIGN CHOICE (logs
3, 6): `s` is the machine as the faulting iteration found it, so the draws of the STEP's earlier iterations stay counted, and
the latch counts as one more, so that nothing read after this fault is equated with anything read after another. -/
def State.latchFault (f : Fault) (s : State) : State :=
  { Config.unspecified f s with
    fault := some f, cfg := s.cfg, iter := 0, draws := s.draws + 1, life := s.life }

/-! ### Memory through the state -/

/-- The byte `MEM[a]`, for `a` up to 0xFFF. -/
def State.byteAt (s : State) (a : Nat) : Byte := Memory.read s.cfg.fontData s.mem a

/-- `MemRead(a, 1)` (R56). The address is an unbounded integer (R67). -/
def memRead (s : State) (a : Nat) : Except Fault Byte :=
  if a < Config.memSize then .ok (s.byteAt a) else .error (.memoryOutOfBounds a)

/-- `MEM[a] <- x`, for `a` up to 0xFFF. -/
def State.setByte (s : State) (a : Nat) (x : Byte) : State :=
  { s with mem := Memory.write s.cfg.fontData s.mem a x }

/-- `MemWrite(a, 1, x)` (R57). -/
def memWrite (s : State) (a : Nat) (x : Byte) : Except Fault State :=
  if a < Config.memSize then .ok (s.setByte a x) else .error (.memoryOutOfBounds a)

/-- Bytes stored one at a time at ascending addresses from `a` (R54); the first address out of range is the one
reported (R239). -/
def storeBytes (s : State) (a : Nat) : List Byte → Except Fault State
  | [] => .ok s
  | x :: xs =>
    match memWrite s a x with
    | .ok s' => storeBytes s' (a + 1) xs
    | .error f => .error f

/-- `n` bytes read one at a time from ascending addresses from `a` (R54); the first address out of range is the one
reported (R239). -/
def fetchBytes (s : State) (a : Nat) : Nat → Except Fault (List Byte)
  | 0 => .ok []
  | n + 1 =>
    match memRead s a with
    | .error f => .error f
    | .ok x =>
      match fetchBytes s (a + 1) n with
      | .ok xs => .ok (x :: xs)
      | .error f => .error f

/-! ### Registers -/

/-- `V[r]` (R15, R21). -/
def State.reg (s : State) (r : Reg) : Byte := s.v[r]

/-- `V[r] <- x` (R15, R21). -/
def State.setReg (s : State) (r : Reg) (x : Byte) : State := { s with v := s.v.set r x }

/-- The flag-last rule (R23): the result goes to `V[x]`, then the flag to `VF`. -/
def State.setResultAndFlag (s : State) (x : Reg) (result flag : Byte) : State :=
  (s.setReg x result).setReg VF flag

/-- `V[k] <- xs[0]`, `V[k+1] <- xs[1]` and so on; `k` stays below 16 in every use. -/
def State.setRegsFrom (s : State) (k : Nat) : List Byte → State
  | [] => s
  | x :: xs => (s.setReg (Fin.ofNat 16 k) x).setRegsFrom (k + 1) xs

/-- `V[0]` to `V[x]`, in order. -/
def State.regsThrough (s : State) (x : Reg) : List Byte :=
  (List.range (x.val + 1)).map (fun k => s.reg (Fin.ofNat 16 k))

/-- `I <- a`. -/
def State.setI (s : State) (a : Word) : State := { s with i := a }

/-- `PC <- a`. -/
def State.setPc (s : State) (a : Word) : State := { s with pc := a }

/-- The skip law (R107): exactly 2 more when the condition holds. -/
def State.skipIf (s : State) (c : Bool) : State := if c then s.setPc (s.pc + 2) else s

/-! ### The call stack (R28) -/

/-- CALL's push of the current PC (R102). -/
def pushPc (s : State) : Except Fault State :=
  if s.sp < s.cfg.stackDepth then .ok { s with stack := s.pc :: s.stack } else .error .stackOverflow

/-- RET's pop into PC (R100). -/
def popPc (s : State) : Except Fault State :=
  match s.stack with
  | [] => .error .stackUnderflow
  | a :: rest => .ok { s with stack := rest, pc := a }

/-- `STACK[k]`: the k-th live cell, oldest first; none at `SP` and above (R28). -/
def State.stackCell (s : State) (k : Nat) : Option Word := s.stack.reverse[k]?

/-! ### The framebuffer (R31) -/

/-- `FB[y][x]`. -/
def Framebuffer.pixel (fb : Framebuffer) (y : Fin 32) (x : Fin 64) : Bool := fb[y][x]

/-- `FB[y][x] <- b`. -/
def Framebuffer.setPixel (fb : Framebuffer) (y : Fin 32) (x : Fin 64) (b : Bool) : Framebuffer :=
  fb.set y (fb[y].set x b)

/-- Every cell 0 (R170). -/
def Framebuffer.clear : Framebuffer := Vector.replicate 32 (Vector.replicate 64 false)

/-- One set sprite bit (R171): the pixel is inverted, and finding it lit is a collision. The pair is the framebuffer
with the collision so far. -/
def blitPixel (y : Fin 32) (x : Fin 64) (d : Framebuffer × Bool) : Framebuffer × Bool :=
  (d.1.setPixel y x (d.1.pixel y x ^^ true), d.2 || d.1.pixel y x)

/-- The screen column of sprite column `c`: it wraps (R171). -/
def screenColumn (x0 : Fin 64) (c : Nat) : Fin 64 := Fin.ofNat 64 (x0.val + c)

/-- The eight columns of one sprite byte at row `y`; bit 7 is the leftmost (R171). -/
def blitRow (y : Fin 32) (x0 : Fin 64) (b : Byte) (d : Framebuffer × Bool) : Framebuffer × Bool :=
  [0, 1, 2, 3, 4, 5, 6, 7].foldl
    (fun d c => if b.getLsbD (7 - c) then blitPixel y (screenColumn x0 c) d else d) d

/-- The rows `r`, `r+1`, … of a sprite, `left` of them: each byte is read, then the clip is tested (R171, D20). The
reads are of `s`, whose memory and `I` the blit does not change. -/
def blitRows (s : State) (x0 : Fin 64) (y0 : Fin 32) : Nat → Nat → Framebuffer × Bool →
    Except Fault (Framebuffer × Bool)
  | 0, _, d => .ok d
  | left + 1, r, d =>
    match memRead s (s.i.toNat + r) with
    | .error f => .error f
    | .ok b =>
      if h : y0.val + r < 32 then blitRows s x0 y0 left (r + 1) (blitRow ⟨y0.val + r, h⟩ x0 b d) else .ok d

/-! ### Keypad, timers, latch -/

/-- Whether key `k` is pressed (R32). -/
def State.pressed (s : State) (k : Nibble) : Bool := s.key[k]

/-- One timer's countdown: down by 1 while above 0, never below (R204). -/
def countDown (t : Byte) : Byte := if t = 0 then 0 else t - 1

/-- `Tick()` (R204). -/
def State.tick (s : State) : State := { s with dt := countDown s.dt, st := countDown s.st }

/-- The key-release event (R209): the first release after the latch closed gives the code and reopens it. -/
def State.keyRelease (s : State) (k : Nibble) : State :=
  match s.wait with
  | .awaitingKey t => { s.setReg t (BitVec.ofNat 8 k.val) with wait := .running }
  | .running => s

/-- `SET_KEY(code, pressed)` (R208): every report of an unpressed key is a release event (D13). -/
def State.setKey (s : State) (code : Nibble) (pressed : Bool) : State :=
  let s' := { s with key := s.key.set code pressed }
  if pressed then s' else s'.keyRelease code

/-! ### The fetch and the frame of an iteration (`46_step_and_host_ops.md`) -/

/-- The word at PC, big-endian, and PC advanced by 2 (R53, R202). A fetch that faults has not advanced PC. -/
def fetch (s : State) : Except Fault (Word × State) :=
  match memRead s s.pc.toNat with
  | .error f => .error f
  | .ok hi =>
    match memRead s (s.pc.toNat + 1) with
    | .error f => .error f
    | .ok lo => .ok (wordOfBytes hi lo, s.setPc (s.pc + 2))

/-- `report UnknownInstruction(w, a)`: no other effect (R202, R231). -/
def State.report (s : State) (w : Word) (a : Nat) : State :=
  { s with reports := s.reports ++ [⟨w, a⟩] }

/-- The head of a STEP: the report list is empty (R201), and the machine has been started. -/
def State.beginStep (s : State) : State := { s with reports := [], life := .started }

/-- Before an iteration: the first one of a STEP begins the STEP. -/
def State.beginIteration (s : State) : State := if s.iter = 0 then s.beginStep else s

/-- After an iteration: the STEP ends with its tick when the latch has closed (R203) or the batch is done (R201);
otherwise the next iteration follows. -/
def State.endIteration (s : State) : State :=
  if s.wait = .running ∧ s.iter + 1 < s.cfg.batch then { s with iter := s.iter + 1 }
  else { s.tick with iter := 0 }

/-- A whole STEP begun while the latch is closed: the tick only (R205). -/
def State.waitingStep (s : State) : State := { s.beginStep.tick with iter := 0 }

end Sys2Proof.Machine
end

