-- ==== Sys2Proof/Machine/Operands.lean ====
section
/-! DEFINITION. The operands and effective addresses of the instructions, as the pseudocode of files 40 to 44 computes
them. -/

namespace Sys2Proof.Machine

/-- A 12-bit immediate at 16 bits (R73). -/
def immAddr (nnn : Addr12) : Word := nnn.zeroExtend 16

/-- The register SHR and SHL shift, by `SHIFT_SOURCE` (R129, R130). -/
def shiftSourceReg (s : State) (x y : Reg) : Reg :=
  match s.cfg.shiftSource with
  | .vx => x
  | .vy => y

/-- The register JP V0,nnn adds, by `JUMP_OFFSET_REG`; under `VX` it is x = nnn[11:8] (R108). -/
def jumpOffsetRegister (s : State) (nnn : Addr12) : Reg :=
  match s.cfg.jumpOffsetReg with
  | .v0 => 0
  | .vx => (nnn.extractLsb' 8 4).toFin

/-- The target of JP V0,nnn: not reduced modulo 4096 (R108, D9). -/
def jumpTarget (s : State) (nnn : Addr12) : Word :=
  immAddr nnn + (s.reg (jumpOffsetRegister s nnn)).zeroExtend 16

/-- The low nibble of `V[x]`: the key of SKP and SKNP, the character of LD F (R180, R181, R152). -/
def lowNibble (s : State) (x : Reg) : Nibble := Fin.ofNat 16 (s.reg x).toNat

/-- The address of a character's glyph, `0x050 + c*5` (R152). -/
def glyphAddr (c : Nibble) : Word := BitVec.ofNat 16 (Config.fontBase + c.val * 5)

/-- The sum of ADD I,Vx, an unbounded integer (R151). -/
def indexSum (s : State) (x : Reg) : Nat := s.i.toNat + (s.reg x).toNat

/-- The three decimal digits of a byte: hundreds, tens, ones (R132, R153). -/
def decimalDigits (b : Byte) : List Byte :=
  [BitVec.ofNat 8 (b.toNat / 100), BitVec.ofNat 8 (b.toNat / 10 % 10), BitVec.ofNat 8 (b.toNat % 10)]

/-- The effective address `I + offset`: an integer, never wrapped (R67, R156). -/
def dataAddr (s : State) (offset : Nat) : Nat := s.i.toNat + offset

/-- The start column of a sprite, `V[x] mod 64` (R171). -/
def spriteColumn (s : State) (x : Reg) : Fin 64 := Fin.ofNat 64 (s.reg x).toNat

/-- The start row of a sprite, `V[y] mod 32` (R171). -/
def spriteRow (s : State) (y : Reg) : Fin 32 := Fin.ofNat 32 (s.reg y).toNat

end Sys2Proof.Machine
end

