-- ==== Sys2Proof/Machine/Flags.lean ====
section
/-! DEFINITION. The values the seven flag-writing instructions give VF (`10_state.md` R22). All are computed from the old
values of the sources (R23). -/

namespace Sys2Proof.Machine

/-- A condition as a flag value, 1 or 0. -/
def flagOf (c : Bool) : Byte := if c then 1 else 0

/-- ADD Vx,Vy: 1 if the 9-bit sum is greater than 255 (R126). -/
def carryFlag (a b : Byte) : Byte := flagOf (decide (a.toNat + b.toNat > 255))

/-- SUB and SUBN, `a - b`: 1 if a >= b, no borrow (R127, R128). -/
def noBorrowFlag (a b : Byte) : Byte := flagOf (decide (a.toNat ≥ b.toNat))

/-- SHR: bit 0 before the shift (R129). -/
def shiftedOutRight (b : Byte) : Byte := flagOf (b.getLsbD 0)

/-- SHL: bit 7 before the shift (R130). -/
def shiftedOutLeft (b : Byte) : Byte := flagOf (b.getLsbD 7)

/-- DRW: 1 if a pixel went from 1 to 0 (R171). -/
def collisionFlag (hit : Bool) : Byte := flagOf hit

/-- ADD I,Vx: whether it sets VF, on the sum before the 16-bit mask and only under `ADD_I_FLAG = ON` (R151). Where it
does not, VF is not written (D7). -/
def setsIndexFlag (s : State) (x : Reg) : Bool :=
  decide (s.cfg.addIFlag = .on) && decide (indexSum s x > 0x0FFF)

end Sys2Proof.Machine
end

