-- ==== Sys2Proof/Machine/Alu.lean ====
section
/-! DEFINITION. Register load, arithmetic, logic, shift and random instructions (`41_alu.md`). None can fault. -/

namespace Sys2Proof.Machine

/-- LD Vx,nn (R120). -/
def execLdImm (x : Reg) (nn : Byte) (s : State) : Result := .next (s.setReg x nn)

/-- ADD Vx,nn (R121): no flag is written. -/
def execAddImm (x : Reg) (nn : Byte) (s : State) : Result := .next (s.setReg x (s.reg x + nn))

/-- LD Vx,Vy (R122). -/
def execLdReg (x y : Reg) (s : State) : Result := .next (s.setReg x (s.reg y))

/-- OR Vx,Vy (R123): VF is not written (D24). -/
def execOr (x y : Reg) (s : State) : Result := .next (s.setReg x (s.reg x ||| s.reg y))

/-- AND Vx,Vy (R124): VF is not written (D24). -/
def execAnd (x y : Reg) (s : State) : Result := .next (s.setReg x (s.reg x &&& s.reg y))

/-- XOR Vx,Vy (R125): VF is not written (D24). -/
def execXor (x y : Reg) (s : State) : Result := .next (s.setReg x (s.reg x ^^^ s.reg y))

/-- ADD Vx,Vy (R126). -/
def execAddReg (x y : Reg) (s : State) : Result :=
  .next (s.setResultAndFlag x (s.reg x + s.reg y) (carryFlag (s.reg x) (s.reg y)))

/-- SUB Vx,Vy (R127). -/
def execSub (x y : Reg) (s : State) : Result :=
  .next (s.setResultAndFlag x (s.reg x - s.reg y) (noBorrowFlag (s.reg x) (s.reg y)))

/-- SUBN Vx,Vy (R128). -/
def execSubn (x y : Reg) (s : State) : Result :=
  .next (s.setResultAndFlag x (s.reg y - s.reg x) (noBorrowFlag (s.reg y) (s.reg x)))

/-- SHR Vx (R129). -/
def execShr (x y : Reg) (s : State) : Result :=
  .next (s.setResultAndFlag x (s.reg (shiftSourceReg s x y) >>> 1) (shiftedOutRight (s.reg (shiftSourceReg s x y))))

/-- SHL Vx (R130). -/
def execShl (x y : Reg) (s : State) : Result :=
  .next (s.setResultAndFlag x (s.reg (shiftSourceReg s x y) <<< 1) (shiftedOutLeft (s.reg (shiftSourceReg s x y))))

/-- RND Vx,nn for a drawn byte `r`; one draw is consumed (R131). -/
def rndWith (r : Byte) (x : Reg) (nn : Byte) (s : State) : State :=
  { s.setReg x (r &&& nn) with draws := s.draws + 1 }

/-- RND Vx,nn (R131): the drawn byte is the next free value. -/
def execRnd (x : Reg) (nn : Byte) (s : State) : Result := .next (rndWith (Config.randomByte s.draws) x nn s)

end Sys2Proof.Machine
end

