-- ==== Sys2Proof/Machine/ControlFlow.lean ====
section
/-! DEFINITION. Control-flow instructions (`40_control_flow.md`). On entry PC is already the address after the
instruction (R25). -/

namespace Sys2Proof.Machine

/-- RET (R100). -/
def execRet (s : State) : Result := finish (popPc s)

/-- JP nnn (R101). -/
def execJp (nnn : Addr12) (s : State) : Result := .next (s.setPc (immAddr nnn))

/-- CALL nnn (R102): the pushed address is PC, already past the CALL. -/
def execCall (nnn : Addr12) (s : State) : Result :=
  match pushPc s with
  | .ok s' => .next (s'.setPc (immAddr nnn))
  | .error f => raise f

/-- SE Vx,nn (R103). -/
def execSeImm (x : Reg) (nn : Byte) (s : State) : Result := .next (s.skipIf (s.reg x = nn))

/-- SNE Vx,nn (R104). -/
def execSneImm (x : Reg) (nn : Byte) (s : State) : Result := .next (s.skipIf (s.reg x ≠ nn))

/-- SE Vx,Vy (R105). -/
def execSeReg (x y : Reg) (s : State) : Result := .next (s.skipIf (s.reg x = s.reg y))

/-- SNE Vx,Vy (R106). -/
def execSneReg (x y : Reg) (s : State) : Result := .next (s.skipIf (s.reg x ≠ s.reg y))

/-- JP V0,nnn (R108). -/
def execJpV0 (nnn : Addr12) (s : State) : Result := .next (s.setPc (jumpTarget s nnn))

end Sys2Proof.Machine
end

