-- ==== Sys2Proof/Machine/Display.lean ====
section
/-! DEFINITION. Display instructions (`43_display.md`). -/

namespace Sys2Proof.Machine

/-- CLS (R170). -/
def execCls (s : State) : Result := .next { s with fb := Framebuffer.clear }

/-- DRW Vx,Vy,n (R171): the coordinates are read before VF is written; VF is always written, 0 or 1. -/
def execDrw (x y : Reg) (n : Nibble) (s : State) : Result :=
  match blitRows s (spriteColumn s x) (spriteRow s y) n.val 0 (s.fb, false) with
  | .ok (fb, hit) => .next { s.setReg VF (collisionFlag hit) with fb := fb }
  | .error f => raise f

end Sys2Proof.Machine
end

