-- ==== Sys2Proof/Machine/IndexMemory.lean ====
section
/-! DEFINITION. Index-register and memory instructions (`42_index_memory.md`). None changes `I` but the first three. -/

namespace Sys2Proof.Machine

/-- LD I,nnn (R150). -/
def execLdI (nnn : Addr12) (s : State) : Result := .next (s.setI (immAddr nnn))

/-- ADD I,Vx (R151): `V[x]` is read before any write; VF is written 1 or not at all (D7). -/
def execAddI (x : Reg) (s : State) : Result :=
  let s' := s.setI (BitVec.ofNat 16 (indexSum s x))
  .next (if setsIndexFlag s x then s'.setReg VF 1 else s')

/-- LD F,Vx (R152): memory is not accessed. -/
def execLdF (x : Reg) (s : State) : Result := .next (s.setI (glyphAddr (lowNibble s x)))

/-- LD B,Vx (R153): hundreds at `I`, tens at `I+1`, ones at `I+2`. -/
def execLdB (x : Reg) (s : State) : Result :=
  finish (storeBytes s (dataAddr s 0) (decimalDigits (s.reg x)))

/-- LD [I],Vx (R154): `V[0]` to `V[x]` at `I` to `I+x`; `I` is unchanged. -/
def execStoreRegs (x : Reg) (s : State) : Result :=
  finish (storeBytes s (dataAddr s 0) (s.regsThrough x))

/-- LD Vx,[I] (R155): `V[0]` to `V[x]` from `I` to `I+x`; `I` is unchanged. Loading a register changes neither `I` nor
memory, so reading all the bytes before writing the registers is the rule's loop (log 12). -/
def execLoadRegs (x : Reg) (s : State) : Result :=
  match fetchBytes s (dataAddr s 0) (x.val + 1) with
  | .ok xs => .next (s.setRegsFrom 0 xs)
  | .error f => raise f

end Sys2Proof.Machine
end

