-- ==== Sys2Proof/Machine/TimersKeypad.lean ====
section
/-! DEFINITION. Keypad and timer instructions (`44_timers_keypad.md`). None can fault, none touches memory. -/

namespace Sys2Proof.Machine

/-- SKP Vx (R180). -/
def execSkp (x : Reg) (s : State) : Result := .next (s.skipIf (s.pressed (lowNibble s x)))

/-- SKNP Vx (R181). -/
def execSknp (x : Reg) (s : State) : Result := .next (s.skipIf (!s.pressed (lowNibble s x)))

/-- LD Vx,DT (R182). -/
def execLdVxDt (x : Reg) (s : State) : Result := .next (s.setReg x s.dt)

/-- LD DT,Vx (R183). -/
def execLdDtVx (x : Reg) (s : State) : Result := .next { s with dt := s.reg x }

/-- LD ST,Vx (R184). -/
def execLdStVx (x : Reg) (s : State) : Result := .next { s with st := s.reg x }

/-- LD Vx,K (R185): only the latch closes; `V[x]` is written later, by the key-release event (R209). -/
def execLdVxK (x : Reg) (s : State) : Result := .next { s with wait := .awaitingKey x }

end Sys2Proof.Machine
end

