-- ==== Sys2Proof/Machine/Step.lean ====
section
/-! DEFINITION. One step of the machine: one iteration of rule R202 inside the STEP in progress, with the tick of R204
when it is the STEP's last (`46_step_and_host_ops.md`, log 1). -/

namespace Sys2Proof.Machine

/-- One fetch, decode and execute (R202). -/
def iteration (s : State) : Result :=
  match fetch s with
  | .error f => raise f
  | .ok (w, s') =>
    match decode s.cfg.decodeMode w with
    | .ok i => exec i s'
    | .error _ => .next (s'.report w s.pc.toNat)

/-- One step. On a faulted machine it answers the latched fault (R206); after RomTooLarge there is no step (R210); while
the latch is closed it is a STEP that only ticks (R205); otherwise it is one iteration of the STEP in progress. -/
def step (s : State) : Host.Outcome State Fault Refusal :=
  match s.fault with
  | some f => raise f
  | none =>
    if s.life = .loadFailed then .refused .notStarted
    else
      match s.wait with
      | .awaitingKey _ => .next s.waitingStep
      | .running =>
        match iteration s.beginIteration with
        | .next s' => .next s'.endIteration
        | .fault f => .fault f
        | .refused r => .refused r

/-- Where the next iteration fetches from, when a word can be there; the entry point otherwise (R202, R262). -/
def State.fetchAddr (s : State) : Word := if s.pc.toNat ≤ 0xFFE then s.pc else 0x0200

/-- `s` made ready to fetch a table word: the word stands at PC, big-endian, PC is at an address two bytes can be at,
and the machine is running, not faulted, and not left unstarted. Of the reset state only memory changes (log 15). -/
def State.withFetchWord (s : State) (nbits w : Nat) : State :=
  let s' : State :=
    { s with
      pc := s.fetchAddr, wait := .running, fault := none,
      life := if s.life = .loadFailed then .loaded else s.life }
  (s'.setByte s'.pc.toNat (highByte (tableWord nbits w))).setByte (s'.pc.toNat + 1) (lowByte (tableWord nbits w))

end Sys2Proof.Machine
end

