-- ==== Sys2Proof/Machine/Driver.lean ====
section
/-! DEFINITION. The driver's six operations (`46_step_and_host_ops.md` R200, `70_reset_and_hazards.md` R260) and the error kinds
(`60_exceptions.md` R230). They land between STEPs only (R61, R213). -/

namespace Sys2Proof.Machine

/-! ### STEP (R201) -/

/-- At most `left` more iterations of a batch, then the tick (R201, R203). -/
def batchFrom : Nat → State → Result
  | 0, s => .next s.tick
  | left + 1, s =>
    match iteration s with
    | .next s' => if s'.wait = .running then batchFrom left s' else .next s'.tick
    | .fault f => .fault f
    | .refused r => .refused r

/-- The machine at the last point a batch reaches: before the tick, or before the iteration that faults. "Every earlier
iteration of the batch completed in full" (R241). -/
def batchReach : Nat → State → State
  | 0, s => s
  | left + 1, s =>
    match iteration s with
    | .next s' => if s'.wait = .running then batchReach left s' else s'
    | _ => s

/-- A whole STEP (R201): up to `BATCH` iterations and one tick. -/
def wholeStep (s : State) : Result :=
  match s.fault with
  | some f => raise f
  | none =>
    if s.life = .loadFailed then .refused .notStarted
    else
      match s.wait with
      | .awaitingKey _ => .next s.beginStep.tick
      | .running => batchFrom s.cfg.batch s.beginStep

/-! ### LOAD (R210) -/

/-- `MEM[a + k] <- bytes[k]` for every k; the addresses are in range by LOAD's check. -/
def State.setBytesFrom (s : State) (a : Nat) : List Byte → State
  | [] => s
  | x :: xs => (s.setByte a x).setBytesFrom (a + 1) xs

/-- A LOAD that is accepted. -/
def State.loadRom (s : State) (bytes : List Byte) : State :=
  { s.setBytesFrom Config.loadBase bytes with life := .loaded }

/-- A LOAD that answers RomTooLarge: the content of memory is unspecified, and only RESET may follow (R210,
log 18). The free value is counted (log 3). -/
def State.loadRejected (s : State) (bytes : List Byte) : State :=
  { s with mem := Config.unspecified (bytes, s.draws) s.mem, draws := s.draws + 1, life := .loadFailed }

/-! ### The operations -/

/-- What the driver may do (R200). -/
inductive DriverOp where
  | reset (p : Config.Params)
  | load (bytes : List Byte)
  | step
  | setKey (code : Nibble) (pressed : Bool)
  | readFb
  | readSt
  deriving DecidableEq, Repr

/-- What the driver is told (R16, R200). -/
inductive Reply where
  /-- Done, nothing to tell: RESET, LOAD, SET_KEY. -/
  | done
  /-- A STEP that ended well, with its UnknownInstruction reports (R201). -/
  | stepped (reports : List Report)
  /-- A STEP that a fatal fault ended, or a STEP on a faulted machine (R206). -/
  | faulted (f : Fault)
  /-- LOAD of an image that does not fit (R235). -/
  | romTooLarge
  /-- READ_FB (R211). -/
  | framebuffer (fb : Framebuffer)
  /-- READ_ST (R212). -/
  | soundTimer (st : Byte)
  deriving DecidableEq, Repr

/-- The outcome of an operation: an answer and the machine after it, or a refusal of a move the spec does not give. -/
inductive OpOutcome where
  | answered (r : Reply) (s : State)
  | refused (r : Refusal)
  deriving DecidableEq, Repr

/-- A machine whose FAULT is latched holds nothing else that is specified (R241): an operation that would write it
leaves it as unspecified as before. -/
def State.settle (s : State) : State :=
  match s.fault with
  | some f => s.latchFault f
  | none => s

/-- RESET (R260). DESIGN CHOICE (log 3): the count of free values goes on, so that the random bytes of the new machine are
free of those of the old one (R12); a STEP that faulted has counted its own (`performStep`). -/
def performReset (p : Config.Params) (s : State) : OpOutcome :=
  if p.wf then .answered .done { State.resetWith p with draws := s.draws } else .refused .badParameters

/-- LOAD (R210): at most once, after RESET and before the first STEP (D23). -/
def performLoad (bytes : List Byte) (s : State) : OpOutcome :=
  if s.life ≠ .constructed then .refused .loadOutOfOrder
  else if Rom.fits bytes then .answered .done (s.loadRom bytes)
  else .answered .romTooLarge (s.loadRejected bytes)

/-- STEP (R201, R206). After a fatal fault the machine is latched from the point where the faulting iteration began: the
draws of the iterations before it stay counted. That count is the model's own (DESIGN CHOICE, logs 3, 6). -/
def performStep (s : State) : OpOutcome :=
  match s.fault with
  | some f => .answered (.faulted f) s
  | none =>
    match wholeStep s with
    | .next s' => .answered (.stepped s'.reports) s'
    | .fault f => .answered (.faulted f) ((batchReach s.cfg.batch s.beginStep).latchFault f)
    | .refused r => .refused r

/-- SET_KEY (R208). -/
def performSetKey (code : Nibble) (pressed : Bool) (s : State) : OpOutcome :=
  .answered .done (s.setKey code pressed).settle

/-- An operation of the driver. None lands inside a STEP (R213); after RomTooLarge only RESET does (R210). -/
def perform (op : DriverOp) (s : State) : OpOutcome :=
  if s.iter ≠ 0 then .refused .operationDuringStep
  else
    match op with
    | .reset p => performReset p s
    | .load bytes => performLoad bytes s
    | .step => performStep s
    | .setKey code pressed => if s.life = .loadFailed then .refused .notStarted else performSetKey code pressed s
    | .readFb => if s.life = .loadFailed then .refused .notStarted else .answered (.framebuffer s.fb) s
    | .readSt => if s.life = .loadFailed then .refused .notStarted else .answered (.soundTimer s.st) s

/-- The driver's sound output (R212): a tone is active while `ST > 0`. -/
def toneActive (st : Byte) : Bool := 0 < st.toNat

/-! ### Error kinds (R230) -/

/-- The five error kinds. -/
inductive ErrorKind where
  | unknownInstruction
  | stackUnderflow
  | stackOverflow
  | memoryOutOfBounds
  | romTooLarge
  deriving DecidableEq, Repr

/-- The numeric label of an error kind; the spec's own, nothing depends on it (R230, D17). -/
def errorCode : ErrorKind → Nat
  | .unknownInstruction => 0
  | .stackUnderflow => 1
  | .stackOverflow => 2
  | .memoryOutOfBounds => 3
  | .romTooLarge => 4

/-- The kind of a fatal fault. -/
def faultKind : Fault → ErrorKind
  | .stackUnderflow => .stackUnderflow
  | .stackOverflow => .stackOverflow
  | .memoryOutOfBounds _ => .memoryOutOfBounds

end Sys2Proof.Machine
end

