-- ==== Sys2Proof/Safety.lean ====
section
/-! DEFINITION. The vocabulary of the claims: what an instruction leaves unchanged, when the machine can run, what a sound
state is, and what a sprite covers. -/

namespace Sys2Proof.Machine

/-! ### Frames -/

/-- The parts of the state, one for each field. -/
inductive Part where
  | mem | v | i | pc | stack | dt | st | fb | key | wait | fault | cfg | iter | reports | draws | life
  deriving DecidableEq, Repr

/-- One part reads the same in two states; memory and registers by every one of their cells. -/
def Part.same : Part → State → State → Prop
  | .mem, s, t => ∀ a, t.byteAt a = s.byteAt a
  | .v, s, t => ∀ r, t.reg r = s.reg r
  | .i, s, t => t.i = s.i
  | .pc, s, t => t.pc = s.pc
  | .stack, s, t => t.stack = s.stack
  | .dt, s, t => t.dt = s.dt
  | .st, s, t => t.st = s.st
  | .fb, s, t => ∀ y x, t.fb.pixel y x = s.fb.pixel y x
  | .key, s, t => ∀ k, t.pressed k = s.pressed k
  | .wait, s, t => t.wait = s.wait
  | .fault, s, t => t.fault = s.fault
  | .cfg, s, t => t.cfg = s.cfg
  | .iter, s, t => t.iter = s.iter
  | .reports, s, t => t.reports = s.reports
  | .draws, s, t => t.draws = s.draws
  | .life, s, t => t.life = s.life

/-- Every part but those listed reads the same. -/
def KeepsAllBut (ps : List Part) (s t : State) : Prop := ∀ p, p ∉ ps → p.same s t

/-- Every general register but those listed is unchanged. -/
def KeepsRegsBut (rs : List Reg) (s t : State) : Prop := ∀ r, r ∉ rs → t.reg r = s.reg r

/-- Every byte of memory outside the `n` bytes from `a` reads as before. -/
def KeepsBytesOutside (a n : Nat) (s t : State) : Prop := ∀ b, b < a ∨ a + n ≤ b → t.byteAt b = s.byteAt b

/-! ### Running -/

/-- Nothing stops a step from running an instruction: no latched fault, no failed LOAD, the latch open. -/
def State.CanRun (s : State) : Prop := s.fault = none ∧ s.life ≠ .loadFailed ∧ s.wait = .running

/-- The word two bytes make at an address: the lower address holds the high byte (R53). -/
def State.wordAt (s : State) (a : Nat) : Word := wordOfBytes (s.byteAt a) (s.byteAt (a + 1))

/-- The state an iteration starts its execution in: the STEP begun if this is its first iteration, PC past the word. -/
def State.fetched (s : State) : State := s.beginIteration.setPc (s.pc + 2)

/-! ### Sound states -/

/-- What holds of every state a run reaches, as long as FAULT is NONE and no LOAD has failed. -/
structure State.Sound (s : State) : Prop where
  /-- The parameters are in their ranges (R5, R6, R11). -/
  params : s.cfg.wf = true
  /-- Memory is in canonical form, so within 0x000 to 0xFFF (R51). -/
  memory : Memory.wf s.cfg.fontData s.mem = true
  /-- R27: the highest PC is the highest target of JP V0,nnn. -/
  pcBound : s.pc.toNat ≤ 0x10FE
  /-- R28: `SP` is at most `STACK_DEPTH`. -/
  stackBound : s.sp ≤ s.cfg.stackDepth
  /-- R27: a pushed address is at most 0x1000. -/
  stackCells : ∀ a ∈ s.stack, a.toNat ≤ 0x1000
  /-- R201: fewer than `BATCH` iterations of the STEP in progress have run. -/
  iterBound : s.iter < s.cfg.batch
  /-- R203: the latch is closed only between STEPs. -/
  waitBetween : s.wait ≠ .running → s.iter = 0
  /-- R207: at most one report for each iteration. -/
  reportsBound : s.reports.length ≤ if s.iter = 0 then s.cfg.batch else s.iter
  /-- A STEP in progress has begun. -/
  lifeStarted : s.iter ≠ 0 → s.life = .started

/-- The invariant: a state is sound unless the spec leaves it unspecified (R34, R210, R241). -/
def State.Inv (s : State) : Prop := s.fault = none → s.life ≠ .loadFailed → s.Sound

/-! ### Sprites (R171) -/

/-- Whether the sprite of `n` rows at `I`, drawn at column `x0` and row `y0`, has a set bit on the pixel at row `y` and
column `x`: rows clip at the bottom, columns wrap at the right, bit 7 is the leftmost. -/
def State.spriteCovers (s : State) (x0 : Fin 64) (y0 : Fin 32) (n : Nibble) (y : Fin 32) (x : Fin 64) : Bool :=
  decide (y0.val ≤ y.val) && decide (y.val - y0.val < n.val) && decide ((x.val + 64 - x0.val) % 64 < 8) &&
    (s.byteAt (s.i.toNat + (y.val - y0.val))).getLsbD (7 - (x.val + 64 - x0.val) % 64)

/-- The sprite bytes that are read all lie in memory: the drawn rows and the first clipped one (R171, D20). -/
def State.spriteReadable (s : State) (y0 : Fin 32) (n : Nibble) : Prop :=
  n.val = 0 ∨ s.i.toNat + min n.val (33 - y0.val) - 1 ≤ 0xFFF

end Sys2Proof.Machine
end

