-- ==== Sys2Proof/Certificates/Slice0/Obligations.lean ====
section
/-! DEFINITION. The statements about the model, for the provers. `exec` runs an instruction that has been fetched: PC is
already past it (`10_state.md` R25). A statement that an instruction "keeps" a part says so by `KeepsAllBut`,
`KeepsRegsBut` and `KeepsBytesOutside` of Safety.lean. An encoding clause is the Encoding line of the instruction's own
rule; R75 says that all patterns but `6xnn`, `7xnn` and `9xy0` are the spec's decision D1 (log 8). -/

open Sys2Proof Sys2Proof.Machine
open Sys2Proof.Config (DecodeMode)

/-! ### Encoding (`30_encoding.md`) -/

/-- Words written out from the patterns of R75, one of each format and both printed words of the document, decode to the
instructions they stand for in both modes; words R78 lists as unknown do not decode under EXACT. The patterns but three
are the spec's decision D1, the strictness D2 (logs 8, 20). -/
def Obligations.SpecWordsDecodeAsWritten : Prop :=
  (∀ mode : DecodeMode,
    decode mode 0x6005 = .ok (.ldImm 0 5) ∧ decode mode 0x7003 = .ok (.addImm 0 3) ∧
    decode mode 0x00E0 = .ok .cls ∧ decode mode 0x00EE = .ok .ret ∧
    decode mode 0x1234 = .ok (.jp 0x234) ∧ decode mode 0x9AB0 = .ok (.sneReg 0xA 0xB) ∧
    decode mode 0x8126 = .ok (.shr 1 2) ∧ decode mode 0xD125 = .ok (.drw 1 2 5) ∧
    decode mode 0xE3A1 = .ok (.sknp 3) ∧ decode mode 0xFF65 = .ok (.loadRegs 15)) ∧
  decode .exact 0x0000 = .error (.unknownInstruction 0x0000) ∧
  decode .exact 0x01E0 = .error (.unknownInstruction 0x01E0) ∧
  decode .exact 0x5121 = .error (.unknownInstruction 0x5121) ∧
  decode .exact 0x8128 = .error (.unknownInstruction 0x8128) ∧
  decode .exact 0xF1FF = .error (.unknownInstruction 0xF1FF)

/-- Decoding the word of any instruction, with every value of every operand, gives it back, in both decode modes. The
patterns are those of R75, the spec's decision D1 (log 8). -/
def Obligations.EncodeThenDecodeGivesBack : Prop :=
  ∀ (mode : DecodeMode) (i : Instr), decode mode (encode i) = .ok i

/-- Under EXACT every word that selects an instruction is that instruction's word: no word has two readings and no bit
of a word is ignored (R76, R83; the spec's decisions D1, D2). -/
def Obligations.ExactDecodeThenEncodeGivesBack : Prop :=
  ∀ (w : Word) (i : Instr), decode .exact w = .ok i → encode i = w

/-- The words unknown under EXACT are exactly those of R78's table, which the spec derives from R76 (decisions D1 and
D2). -/
def Obligations.UnknownWordsUnderExact : Prop :=
  ∀ w : Word, decode .exact w = .error (.unknownInstruction w) ↔
    (nibble1 w = 0x0 ∧ w ≠ 0x00E0 ∧ w ≠ 0x00EE) ∨
    (nibble1 w = 0x5 ∧ fieldN w ≠ 0) ∨
    (nibble1 w = 0x8 ∧ (fieldN w).val ∈ [0x8, 0x9, 0xA, 0xB, 0xC, 0xD, 0xF]) ∨
    (nibble1 w = 0x9 ∧ fieldN w ≠ 0) ∨
    (nibble1 w = 0xE ∧ (fieldNN w).toNat ∉ [0x9E, 0xA1]) ∨
    (nibble1 w = 0xF ∧ (fieldNN w).toNat ∉ [0x07, 0x0A, 0x15, 0x18, 0x1E, 0x29, 0x33, 0x55, 0x65])

/-- TABLE2 selects what EXACT selects, and more in three places only: CLS and RET with any x nibble, SE Vx,Vy and SNE
Vx,Vy with any n nibble (R77, the spec's decision D2). -/
def Obligations.Table2DiffersInThreePlaces : Prop :=
  ∀ (w : Word) (i : Instr), decode .table2 w = .ok i ↔
    decode .exact w = .ok i ∨
    (nibble1 w = 0x0 ∧ fieldX w ≠ 0 ∧ fieldNN w = 0xE0 ∧ i = .cls) ∨
    (nibble1 w = 0x0 ∧ fieldX w ≠ 0 ∧ fieldNN w = 0xEE ∧ i = .ret) ∨
    (nibble1 w = 0x5 ∧ fieldN w ≠ 0 ∧ i = .seReg (fieldX w) (fieldY w)) ∨
    (nibble1 w = 0x9 ∧ fieldN w ≠ 0 ∧ i = .sneReg (fieldX w) (fieldY w))

/-! ### Control flow (`40_control_flow.md`) -/

/-- RET (R100): with an empty stack StackUnderflow; otherwise PC is the newest address and the stack is one shorter, its
older cells in place. -/
def Obligations.RetPopsNewestAddress : Prop :=
  encode .ret = 0x00EE ∧
  (∀ s : State, s.sp = 0 → exec .ret s = .fault .stackUnderflow) ∧
  (∀ s : State, 0 < s.sp → ∃ t, exec .ret s = .next t ∧
    t.sp = s.sp - 1 ∧ s.stackCell (s.sp - 1) = some t.pc ∧ (∀ k < t.sp, t.stackCell k = s.stackCell k) ∧
    KeepsAllBut [.pc, .stack] s t)

/-- JP nnn (R101). -/
def Obligations.JumpSetsPc : Prop :=
  ∀ nnn : Addr12, encode (.jp nnn) = 0x1#4 ++ nnn ∧
    ∀ s : State, ∃ t, exec (.jp nnn) s = .next t ∧ t.pc.toNat = nnn.toNat ∧ KeepsAllBut [.pc] s t

/-- CALL nnn (R102): with a full stack StackOverflow; otherwise PC, already past the CALL, is pushed and PC is nnn. -/
def Obligations.CallPushesReturnAddress : Prop :=
  ∀ nnn : Addr12, encode (.call nnn) = 0x2#4 ++ nnn ∧
    (∀ s : State, s.sp = s.cfg.stackDepth → exec (.call nnn) s = .fault .stackOverflow) ∧
    (∀ s : State, s.sp < s.cfg.stackDepth → ∃ t, exec (.call nnn) s = .next t ∧
      t.pc.toNat = nnn.toNat ∧ t.sp = s.sp + 1 ∧ t.stackCell s.sp = some s.pc ∧
      (∀ k < s.sp, t.stackCell k = s.stackCell k) ∧ KeepsAllBut [.pc, .stack] s t)

/-- Property 4 of the document (R102): CALL followed by RET leaves PC at the address after the CALL, and the stack as it
was; nothing else changes. -/
def Obligations.CallThenRetComesBack : Prop :=
  ∀ (nnn : Addr12) (s : State), s.sp < s.cfg.stackDepth →
    ∃ t u, exec (.call nnn) s = .next t ∧ exec .ret (t.setPc (t.pc + 2)) = .next u ∧
      u.pc = s.pc ∧ u.stack = s.stack ∧ KeepsAllBut [.pc, .stack] s u

/-- SE Vx,nn and SNE Vx,nn (R103, R104). -/
def Obligations.SkipComparesImmediate : Prop :=
  ∀ (x : Reg) (nn : Byte),
    encode (.seImm x nn) = 0x3#4 ++ nib x ++ nn ∧ encode (.sneImm x nn) = 0x4#4 ++ nib x ++ nn ∧
    ∀ s : State,
      (∃ t, exec (.seImm x nn) s = .next t ∧ t.pc = (if s.reg x = nn then s.pc + 2 else s.pc) ∧
        KeepsAllBut [.pc] s t) ∧
      (∃ t, exec (.sneImm x nn) s = .next t ∧ t.pc = (if s.reg x ≠ nn then s.pc + 2 else s.pc) ∧
        KeepsAllBut [.pc] s t)

/-- SE Vx,Vy and SNE Vx,Vy (R105, R106), the low nibble 0 under EXACT, where no other value selects an instruction, and
ignored under TABLE2; the same register never differs from itself. -/
def Obligations.SkipComparesRegisters : Prop :=
  ∀ x y : Reg,
    encode (.seReg x y) = 0x5#4 ++ nib x ++ nib y ++ 0x0#4 ∧
    encode (.sneReg x y) = 0x9#4 ++ nib x ++ nib y ++ 0x0#4 ∧
    (∀ n : BitVec 4, decode .table2 (0x5#4 ++ nib x ++ nib y ++ n) = .ok (.seReg x y) ∧
      decode .table2 (0x9#4 ++ nib x ++ nib y ++ n) = .ok (.sneReg x y)) ∧
    (∀ n : BitVec 4, n ≠ 0 →
      (∀ i, decode .exact (0x5#4 ++ nib x ++ nib y ++ n) ≠ .ok i) ∧
      (∀ i, decode .exact (0x9#4 ++ nib x ++ nib y ++ n) ≠ .ok i)) ∧
    ∀ s : State,
      (∃ t, exec (.seReg x y) s = .next t ∧ t.pc = (if s.reg x = s.reg y then s.pc + 2 else s.pc) ∧
        KeepsAllBut [.pc] s t) ∧
      (∃ t, exec (.sneReg x y) s = .next t ∧ t.pc = (if s.reg x ≠ s.reg y then s.pc + 2 else s.pc) ∧
        KeepsAllBut [.pc] s t)

/-- JP V0,nnn (R108): nnn plus V0, or plus `V[x]` with x the high nibble of not reduced modulo 4096 (the spec's decision
D9). -/
def Obligations.JumpAddsOffsetRegister : Prop :=
  ∀ nnn : Addr12, encode (.jpV0 nnn) = 0xB#4 ++ nnn ∧
    ∀ s : State, ∃ t, exec (.jpV0 nnn) s = .next t ∧
      (s.cfg.jumpOffsetReg = .v0 → t.pc.toNat = nnn.toNat + (s.reg 0).toNat) ∧
      (s.cfg.jumpOffsetReg = .vx →
        ∀ x : Reg, x.val = nnn.toNat / 256 → t.pc.toNat = nnn.toNat + (s.reg x).toNat) ∧
      KeepsAllBut [.pc] s t

/-! ### Arithmetic and logic (`41_alu.md`) -/

/-- LD Vx,nn (R120). -/
def Obligations.LoadImmediateSetsRegister : Prop :=
  ∀ (x : Reg) (nn : Byte), encode (.ldImm x nn) = 0x6#4 ++ nib x ++ nn ∧
    ∀ s : State, ∃ t, exec (.ldImm x nn) s = .next t ∧ t.reg x = nn ∧ KeepsRegsBut [x] s t ∧ KeepsAllBut [.v] s t

/-- ADD Vx,nn (R121): the sum modulo 256, VF unaffected unless it is Vx. -/
def Obligations.AddImmediateLeavesFlag : Prop :=
  ∀ (x : Reg) (nn : Byte), encode (.addImm x nn) = 0x7#4 ++ nib x ++ nn ∧
    ∀ s : State, ∃ t, exec (.addImm x nn) s = .next t ∧
      (t.reg x).toNat = ((s.reg x).toNat + nn.toNat) % 256 ∧ (x ≠ VF → t.reg VF = s.reg VF) ∧
      KeepsRegsBut [x] s t ∧ KeepsAllBut [.v] s t

/-- LD Vx,Vy, OR, AND, XOR (R122 to R125): bit by bit, in place on Vx, VF not written unless it is Vx (the spec's
decision D24, log 20). -/
def Obligations.CopyAndLogicLeaveFlag : Prop :=
  ∀ x y : Reg,
    encode (.ldReg x y) = 0x8#4 ++ nib x ++ nib y ++ 0x0#4 ∧
    encode (.orReg x y) = 0x8#4 ++ nib x ++ nib y ++ 0x1#4 ∧
    encode (.andReg x y) = 0x8#4 ++ nib x ++ nib y ++ 0x2#4 ∧
    encode (.xorReg x y) = 0x8#4 ++ nib x ++ nib y ++ 0x3#4 ∧
    ∀ s : State,
      (∃ t, exec (.ldReg x y) s = .next t ∧ t.reg x = s.reg y ∧ KeepsRegsBut [x] s t ∧ KeepsAllBut [.v] s t) ∧
      (∃ t, exec (.orReg x y) s = .next t ∧
        (∀ k, (t.reg x).getLsbD k = ((s.reg x).getLsbD k || (s.reg y).getLsbD k)) ∧
        KeepsRegsBut [x] s t ∧ KeepsAllBut [.v] s t) ∧
      (∃ t, exec (.andReg x y) s = .next t ∧
        (∀ k, (t.reg x).getLsbD k = ((s.reg x).getLsbD k && (s.reg y).getLsbD k)) ∧
        KeepsRegsBut [x] s t ∧ KeepsAllBut [.v] s t) ∧
      (∃ t, exec (.xorReg x y) s = .next t ∧
        (∀ k, (t.reg x).getLsbD k = ((s.reg x).getLsbD k ^^ (s.reg y).getLsbD k)) ∧
        KeepsRegsBut [x] s t ∧ KeepsAllBut [.v] s t)

/-- ADD Vx,Vy (R126): the sum modulo 256 in Vx, then VF is the carry; with Vx the flag register the flag remains. -/
def Obligations.AddRegistersSetsCarry : Prop :=
  ∀ x y : Reg, encode (.addReg x y) = 0x8#4 ++ nib x ++ nib y ++ 0x4#4 ∧
    ∀ s : State, ∃ t, exec (.addReg x y) s = .next t ∧
      (x ≠ VF → (t.reg x).toNat = ((s.reg x).toNat + (s.reg y).toNat) % 256) ∧
      t.reg VF = (if (s.reg x).toNat + (s.reg y).toNat > 255 then 1 else 0) ∧
      KeepsRegsBut [x, VF] s t ∧ KeepsAllBut [.v] s t

/-- SUB and SUBN (R127, R128): the difference modulo 256 in Vx, then VF is 1 where there was no borrow, from the old
values; with Vx the flag register the flag remains. -/
def Obligations.SubtractSetsNoBorrow : Prop :=
  ∀ x y : Reg,
    encode (.sub x y) = 0x8#4 ++ nib x ++ nib y ++ 0x5#4 ∧
    encode (.subn x y) = 0x8#4 ++ nib x ++ nib y ++ 0x7#4 ∧
    ∀ s : State,
      (∃ t, exec (.sub x y) s = .next t ∧
        (x ≠ VF → ((t.reg x).toNat : Int) = (((s.reg x).toNat : Int) - (s.reg y).toNat) % 256) ∧
        t.reg VF = (if (s.reg x).toNat ≥ (s.reg y).toNat then 1 else 0) ∧
        KeepsRegsBut [x, VF] s t ∧ KeepsAllBut [.v] s t) ∧
      (∃ t, exec (.subn x y) s = .next t ∧
        (x ≠ VF → ((t.reg x).toNat : Int) = (((s.reg y).toNat : Int) - (s.reg x).toNat) % 256) ∧
        t.reg VF = (if (s.reg y).toNat ≥ (s.reg x).toNat then 1 else 0) ∧
        KeepsRegsBut [x, VF] s t ∧ KeepsAllBut [.v] s t)

/-- SHR Vx (R129): half of the source, Vx or Vy by `SHIFT_SOURCE`, in Vx, then VF is its bit 0; that the bit is Vy's
where Vy is shifted is the spec's decision D5. -/
def Obligations.ShiftRightSetsLostBit : Prop :=
  ∀ x y : Reg, encode (.shr x y) = 0x8#4 ++ nib x ++ nib y ++ 0x6#4 ∧
    ∀ (s : State) (src : Reg),
      (s.cfg.shiftSource = .vx → src = x) → (s.cfg.shiftSource = .vy → src = y) →
      ∃ t, exec (.shr x y) s = .next t ∧ (x ≠ VF → (t.reg x).toNat = (s.reg src).toNat / 2) ∧
        (t.reg VF).toNat = (s.reg src).toNat % 2 ∧ KeepsRegsBut [x, VF] s t ∧ KeepsAllBut [.v] s t

/-- SHL Vx (R130): twice the source modulo 256 in Vx, then VF is its bit 7 (decision D5 as in SHR). -/
def Obligations.ShiftLeftSetsLostBit : Prop :=
  ∀ x y : Reg, encode (.shl x y) = 0x8#4 ++ nib x ++ nib y ++ 0xE#4 ∧
    ∀ (s : State) (src : Reg),
      (s.cfg.shiftSource = .vx → src = x) → (s.cfg.shiftSource = .vy → src = y) →
      ∃ t, exec (.shl x y) s = .next t ∧ (x ≠ VF → (t.reg x).toNat = (s.reg src).toNat * 2 % 256) ∧
        (t.reg VF).toNat = (s.reg src).toNat / 128 ∧ KeepsRegsBut [x, VF] s t ∧ KeepsAllBut [.v] s t

/-- RND Vx,nn (R131): the drawn byte, a free value, masked by nn; one draw is consumed. It holds of every draw. -/
def Obligations.RandomIsMaskedDraw : Prop :=
  ∀ (x : Reg) (nn : Byte), encode (.rnd x nn) = 0xC#4 ++ nib x ++ nn ∧
    ∀ s : State, ∃ t, exec (.rnd x nn) s = .next t ∧
      t.reg x = Config.randomByte s.draws &&& nn ∧ (∀ k, nn.getLsbD k = false → (t.reg x).getLsbD k = false) ∧
      t.draws = s.draws + 1 ∧ KeepsRegsBut [x] s t ∧ KeepsAllBut [.v, .draws] s t

/-! ### Index register and memory (`42_index_memory.md`) -/

/-- LD I,nnn (R150). -/
def Obligations.LoadIndexSetsI : Prop :=
  ∀ nnn : Addr12, encode (.ldI nnn) = 0xA#4 ++ nnn ∧
    ∀ s : State, ∃ t, exec (.ldI nnn) s = .next t ∧ t.i.toNat = nnn.toNat ∧ KeepsAllBut [.i] s t

/-- ADD I,Vx (R151): the sum modulo 65536; VF is set to 1 only under `ADD_I_FLAG = ON` and only where the unmasked sum
exceeds 0x0FFF, and is not written otherwise (the spec's decision D7). -/
def Obligations.AddIndexFlagsOverflow : Prop :=
  ∀ x : Reg, encode (.addI x) = 0xF#4 ++ nib x ++ 0x1E#8 ∧
    ∀ s : State, ∃ t, exec (.addI x) s = .next t ∧
      t.i.toNat = (s.i.toNat + (s.reg x).toNat) % 65536 ∧
      (s.cfg.addIFlag = .on ∧ s.i.toNat + (s.reg x).toNat > 0x0FFF → t.reg VF = 1 ∧ KeepsRegsBut [VF] s t) ∧
      (¬ (s.cfg.addIFlag = .on ∧ s.i.toNat + (s.reg x).toNat > 0x0FFF) → KeepsRegsBut [] s t) ∧
      KeepsAllBut [.i, .v] s t

/-- LD F,Vx (R152): the glyph address of the low nibble. -/
def Obligations.LoadFontPointsAtGlyph : Prop :=
  ∀ x : Reg, encode (.ldF x) = 0xF#4 ++ nib x ++ 0x29#8 ∧
    ∀ s : State, ∃ t, exec (.ldF x) s = .next t ∧
      t.i.toNat = 0x050 + (s.reg x).toNat % 16 * 5 ∧ KeepsAllBut [.i] s t

/-- LD B,Vx (R153): the three decimal digits at `I`, `I+1`, `I+2`, every other byte as before; where `I + 2` is beyond
0xFFF, MemoryOutOfBounds at the first address that is (the recorded address is the spec's decision D18, R239). -/
def Obligations.StoreDecimalWritesDigits : Prop :=
  ∀ x : Reg, encode (.ldB x) = 0xF#4 ++ nib x ++ 0x33#8 ∧
    (∀ s : State, s.i.toNat + 2 ≤ 0xFFF → ∃ t, exec (.ldB x) s = .next t ∧
      (t.byteAt (dataAddr s 0)).toNat = (s.reg x).toNat / 100 ∧
      (t.byteAt (dataAddr s 1)).toNat = (s.reg x).toNat / 10 % 10 ∧
      (t.byteAt (dataAddr s 2)).toNat = (s.reg x).toNat % 10 ∧
      KeepsBytesOutside (dataAddr s 0) 3 s t ∧ KeepsAllBut [.mem] s t) ∧
    (∀ s : State, s.i.toNat + 2 > 0xFFF → exec (.ldB x) s = .fault (.memoryOutOfBounds (max s.i.toNat 0x1000)))

/-- LD [I],Vx (R154): `V[0]` to `V[x]` at `I` to `I+x`, every other byte and `I` as before; where `I + x` is beyond
0xFFF, MemoryOutOfBounds at the first address that is (recorded by decision D18, R239). -/
def Obligations.StoreRegistersWritesRange : Prop :=
  ∀ x : Reg, encode (.storeRegs x) = 0xF#4 ++ nib x ++ 0x55#8 ∧
    (∀ s : State, s.i.toNat + x.val ≤ 0xFFF → ∃ t, exec (.storeRegs x) s = .next t ∧
      (∀ k : Reg, k ≤ x → t.byteAt (dataAddr s k.val) = s.reg k) ∧
      KeepsBytesOutside (dataAddr s 0) (x.val + 1) s t ∧ KeepsAllBut [.mem] s t) ∧
    (∀ s : State, s.i.toNat + x.val > 0xFFF →
      exec (.storeRegs x) s = .fault (.memoryOutOfBounds (max s.i.toNat 0x1000)))

/-- LD Vx,[I] (R155): `V[0]` to `V[x]` from `I` to `I+x`, the registers above x and `I` as before; where `I + x` is
beyond 0xFFF, MemoryOutOfBounds at the first address that is (recorded by decision D18, R239). -/
def Obligations.LoadRegistersReadsRange : Prop :=
  ∀ x : Reg, encode (.loadRegs x) = 0xF#4 ++ nib x ++ 0x65#8 ∧
    (∀ s : State, s.i.toNat + x.val ≤ 0xFFF → ∃ t, exec (.loadRegs x) s = .next t ∧
      (∀ k : Reg, k ≤ x → t.reg k = s.byteAt (dataAddr s k.val)) ∧
      (∀ k : Reg, x < k → t.reg k = s.reg k) ∧ KeepsAllBut [.v] s t) ∧
    (∀ s : State, s.i.toNat + x.val > 0xFFF →
      exec (.loadRegs x) s = .fault (.memoryOutOfBounds (max s.i.toNat 0x1000)))

/-- Property 5 of the document (R155): after LD [I],Vx, and whatever was done to the registers in between, LD Vx,[I]
restores registers 0 to x and leaves those above x alone. -/
def Obligations.StoreThenLoadRestores : Prop :=
  ∀ (x : Reg) (s : State) (v : RegFile), s.i.toNat + x.val ≤ 0xFFF →
    ∃ t u, exec (.storeRegs x) s = .next t ∧ exec (.loadRegs x) { t with v := v } = .next u ∧
      (∀ k : Reg, k ≤ x → u.reg k = s.reg k) ∧ (∀ k : Reg, x < k → u.reg k = v[k]) ∧ u.i = s.i

/-- R63: a word stored by LD [I],Vx is what the next fetch from there reads, high byte first. -/
def Obligations.StoredWordIsFetched : Prop :=
  ∀ (x : Reg) (s : State), 1 ≤ x.val → s.i.toNat + x.val ≤ 0xFFF →
    ∃ t, exec (.storeRegs x) s = .next t ∧
      ∃ w : Word, w.toNat = (s.reg 0).toNat * 256 + (s.reg 1).toNat ∧
        fetch (t.setPc s.i) = .ok (w, t.setPc (s.i + 2))

/-! ### Display (`43_display.md`) -/

/-- CLS (R170). -/
def Obligations.ClearScreenZeroesPixels : Prop :=
  encode .cls = 0x00E0 ∧
  ∀ s : State, ∃ t, exec .cls s = .next t ∧ (∀ y x, t.fb.pixel y x = false) ∧ KeepsAllBut [.fb] s t

/-- DRW Vx,Vy,n (R171): each pixel the sprite covers is inverted, VF is 1 where one of them was lit and 0 otherwise;
where a byte that is read (the drawn rows and the first clipped one) is beyond 0xFFF, MemoryOutOfBounds at the first
such. The clipped row's read is the spec's decision D20, the recorded address D18. -/
def Obligations.DrawXorsSprite : Prop :=
  ∀ (x y : Reg) (n : Nibble),
    encode (.drw x y n) = 0xD#4 ++ nib x ++ nib y ++ nib n ∧
    ∀ (s : State) (x0 : Fin 64) (y0 : Fin 32), x0.val = (s.reg x).toNat % 64 → y0.val = (s.reg y).toNat % 32 →
      (s.spriteReadable y0 n → ∃ t, exec (.drw x y n) s = .next t ∧
        (∀ r c, t.fb.pixel r c = (s.fb.pixel r c ^^ s.spriteCovers x0 y0 n r c)) ∧
        ((∃ r c, s.spriteCovers x0 y0 n r c = true ∧ s.fb.pixel r c = true) → t.reg VF = 1) ∧
        ((¬ ∃ r c, s.spriteCovers x0 y0 n r c = true ∧ s.fb.pixel r c = true) → t.reg VF = 0) ∧
        KeepsRegsBut [VF] s t ∧ KeepsAllBut [.fb, .v] s t) ∧
      (¬ s.spriteReadable y0 n → exec (.drw x y n) s = .fault (.memoryOutOfBounds (max s.i.toNat 0x1000)))

/-- Property 2 of the document (R172): the same sprite drawn again at the same place restores every pixel, and then VF
is 1 if the first draw lit a pixel. It is read for x and y other than VF, as R172 says. -/
def Obligations.DrawTwiceRestores : Prop :=
  ∀ (x y : Reg) (n : Nibble) (s t : State), x ≠ VF → y ≠ VF → exec (.drw x y n) s = .next t →
    ∃ u, exec (.drw x y n) t = .next u ∧ (∀ r c, u.fb.pixel r c = s.fb.pixel r c) ∧
      ((∃ r c, s.fb.pixel r c = false ∧ t.fb.pixel r c = true) → u.reg VF = 1)

/-! ### Keypad and timers (`44_timers_keypad.md`) -/

/-- SKP and SKNP (R180, R181): the key is the low nibble of Vx. -/
def Obligations.SkipTestsKey : Prop :=
  ∀ x : Reg,
    encode (.skp x) = 0xE#4 ++ nib x ++ 0x9E#8 ∧ encode (.sknp x) = 0xE#4 ++ nib x ++ 0xA1#8 ∧
    ∀ (s : State) (k : Nibble), k.val = (s.reg x).toNat % 16 →
      (∃ t, exec (.skp x) s = .next t ∧ t.pc = (if s.pressed k = true then s.pc + 2 else s.pc) ∧
        KeepsAllBut [.pc] s t) ∧
      (∃ t, exec (.sknp x) s = .next t ∧ t.pc = (if s.pressed k = false then s.pc + 2 else s.pc) ∧
        KeepsAllBut [.pc] s t)

/-- LD Vx,DT, LD DT,Vx and LD ST,Vx (R182, R183, R184). -/
def Obligations.TimerLoads : Prop :=
  ∀ x : Reg,
    encode (.ldVxDt x) = 0xF#4 ++ nib x ++ 0x07#8 ∧ encode (.ldDtVx x) = 0xF#4 ++ nib x ++ 0x15#8 ∧
    encode (.ldStVx x) = 0xF#4 ++ nib x ++ 0x18#8 ∧
    ∀ s : State,
      (∃ t, exec (.ldVxDt x) s = .next t ∧ t.reg x = s.dt ∧ KeepsRegsBut [x] s t ∧ KeepsAllBut [.v] s t) ∧
      (∃ t, exec (.ldDtVx x) s = .next t ∧ t.dt = s.reg x ∧ KeepsAllBut [.dt] s t) ∧
      (∃ t, exec (.ldStVx x) s = .next t ∧ t.st = s.reg x ∧ KeepsAllBut [.st] s t)

/-- LD Vx,K (R185): only the latch closes; PC stays past the instruction and Vx keeps its value; a key already down does
not matter (the spec's decision D28). -/
def Obligations.AwaitKeyClosesLatch : Prop :=
  ∀ x : Reg, encode (.ldVxK x) = 0xF#4 ++ nib x ++ 0x0A#8 ∧
    ∀ s : State, ∃ t, exec (.ldVxK x) s = .next t ∧ t.wait = .awaitingKey x ∧ KeepsAllBut [.wait] s t

/-! ### Rules of the whole machine -/

/-- R236: RET and CALL raise their stack fault, DRW, LD B, LD [I] and LD Vx,[I] MemoryOutOfBounds above 0xFFF; the other
28 instructions raise nothing, the fetch raises MemoryOutOfBounds exactly above 0xFFE, and no instruction is refused.
R236 is the spec's own inference from the rules of each instruction. -/
def Obligations.OnlySixInstructionsFault : Prop :=
  (∀ (i : Instr) (s : State) (f : Fault), exec i s = .fault f →
    (i = .ret ∧ f = .stackUnderflow) ∨ ((∃ nnn, i = .call nnn) ∧ f = .stackOverflow) ∨
    (((∃ x y n, i = .drw x y n) ∨ (∃ x, i = .ldB x) ∨ (∃ x, i = .storeRegs x) ∨ (∃ x, i = .loadRegs x)) ∧
      ∃ a, 0xFFF < a ∧ f = .memoryOutOfBounds a)) ∧
  (∀ (i : Instr) (s : State) (r : Refusal), exec i s ≠ .refused r) ∧
  (∀ s : State, (∃ f, fetch s = .error f) ↔ 0xFFE < s.pc.toNat) ∧
  (∀ (s : State) (f : Fault), fetch s = .error f → ∃ a, 0xFFF < a ∧ f = .memoryOutOfBounds a)

/-- R37: which instructions change which part of the state; none changes the keypad, the fault latch, the parameters or
the model's bookkeeping of the STEP. -/
def Obligations.EachPartHasItsWriters : Prop :=
  ∀ (i : Instr) (s t : State), exec i s = .next t →
    (t.mem ≠ s.mem → (∃ x, i = .ldB x) ∨ (∃ x, i = .storeRegs x)) ∧
    (t.i ≠ s.i → (∃ nnn, i = .ldI nnn) ∨ (∃ x, i = .addI x) ∨ (∃ x, i = .ldF x)) ∧
    (t.stack ≠ s.stack → i = .ret ∨ (∃ nnn, i = .call nnn)) ∧
    (t.fb ≠ s.fb → i = .cls ∨ (∃ x y n, i = .drw x y n)) ∧
    (t.dt ≠ s.dt → ∃ x, i = .ldDtVx x) ∧ (t.st ≠ s.st → ∃ x, i = .ldStVx x) ∧
    (t.wait ≠ s.wait → ∃ x, i = .ldVxK x) ∧ (t.draws ≠ s.draws → ∃ x nn, i = .rnd x nn) ∧
    t.key = s.key ∧ t.fault = s.fault ∧ t.cfg = s.cfg ∧ t.iter = s.iter ∧ t.reports = s.reports ∧ t.life = s.life

/-- R22: VF changes only as the flag of the seven flag-writing instructions or as the named destination of a register
load (the spec's decision D24). -/
def Obligations.FlagRegisterHasItsWriters : Prop :=
  ∀ (i : Instr) (s t : State), exec i s = .next t → t.reg VF ≠ s.reg VF →
    (∃ x y, i = .addReg x y ∨ i = .sub x y ∨ i = .subn x y ∨ i = .shr x y ∨ i = .shl x y) ∨
    (∃ x y n, i = .drw x y n) ∨ (s.cfg.addIFlag = .on ∧ ∃ x, i = .addI x) ∨
    (∃ nn, i = .ldImm VF nn ∨ i = .addImm VF nn ∨ i = .rnd VF nn) ∨
    (∃ y, i = .ldReg VF y ∨ i = .orReg VF y ∨ i = .andReg VF y ∨ i = .xorReg VF y) ∨
    i = .ldVxDt VF ∨ i = .loadRegs VF

/-- R26: after the fetch, JP, CALL and JP V0 set PC to their target, RET to the popped address, the six skips add 2 when
their condition holds and leave it otherwise, and every other instruction leaves it. That the target of JP V0 is not
reduced is the spec's decision D9. -/
def Obligations.PcAfterEachInstruction : Prop :=
  ∀ (i : Instr) (s t : State), exec i s = .next t →
    match i with
    | .jp nnn | .call nnn => t.pc.toNat = nnn.toNat
    | .jpV0 nnn =>
      (s.cfg.jumpOffsetReg = .v0 → t.pc.toNat = nnn.toNat + (s.reg 0).toNat) ∧
      (s.cfg.jumpOffsetReg = .vx → ∀ x : Reg, x.val = nnn.toNat / 256 → t.pc.toNat = nnn.toNat + (s.reg x).toNat)
    | .ret => s.stackCell (s.sp - 1) = some t.pc
    | .seImm x nn => t.pc = if s.reg x = nn then s.pc + 2 else s.pc
    | .sneImm x nn => t.pc = if s.reg x ≠ nn then s.pc + 2 else s.pc
    | .seReg x y => t.pc = if s.reg x = s.reg y then s.pc + 2 else s.pc
    | .sneReg x y => t.pc = if s.reg x ≠ s.reg y then s.pc + 2 else s.pc
    | .skp x => ∀ k : Nibble, k.val = (s.reg x).toNat % 16 → t.pc = if s.pressed k = true then s.pc + 2 else s.pc
    | .sknp x => ∀ k : Nibble, k.val = (s.reg x).toNat % 16 → t.pc = if s.pressed k = false then s.pc + 2 else s.pc
    | _ => t.pc = s.pc

/-! ### The step (`46_step_and_host_ops.md`) -/

/-- A step runs the decoded instruction (R202): where the word at PC decodes to `i`, the step executes `i` with PC past
the word and then closes the iteration; a fault of `i` is the step's. Of the state before, only PC and the STEP's
bookkeeping differ in the state `i` starts in. That a step is one iteration is the model's choice (log 1). -/
def Obligations.StepRunsDecodedInstruction : Prop :=
  ∀ (s : State) (i : Instr), s.CanRun → s.pc.toNat ≤ 0xFFE →
    decode s.cfg.decodeMode (s.wordAt s.pc.toNat) = .ok i →
      s.fetched.pc = s.pc + 2 ∧ KeepsAllBut [.pc, .reports, .life] s s.fetched ∧
      (∀ t, exec i s.fetched = .next t → step s = .next t.endIteration) ∧
      (∀ f, exec i s.fetched = .fault f → step s = .fault f)

/-- R231: an unknown word is a no-op with a report of the word and its address; PC moves past it, and the batch goes on.
What a report carries is the spec's decision D18; the list in the state is the model's (log 4). -/
def Obligations.StepReportsUnknownWord : Prop :=
  ∀ (s : State) (e : Reject), s.CanRun → s.pc.toNat ≤ 0xFFE →
    decode s.cfg.decodeMode (s.wordAt s.pc.toNat) = .error e →
      ∃ t, step s = .next t.endIteration ∧ t.pc = s.pc + 2 ∧
        t.reports = (if s.iter = 0 then [] else s.reports) ++ [⟨s.wordAt s.pc.toNat, s.pc.toNat⟩] ∧
        t.fault = none ∧ KeepsAllBut [.pc, .reports, .life] s t

/-- R202: with PC above 0xFFE the fetch faults, at the first byte that is out of range; with PC at most 0xFFE it does not:
it gives the word at PC (the spec's decisions D9, D18). -/
def Obligations.StepFaultsBeyondMemory : Prop :=
  ∀ s : State, s.CanRun →
    (0xFFE < s.pc.toNat → step s = .fault (.memoryOutOfBounds (max s.pc.toNat 0x1000))) ∧
    (s.pc.toNat ≤ 0xFFE → fetch s.beginIteration = .ok (s.wordAt s.pc.toNat, s.fetched))

/-- R203, R204: an iteration that closes the latch or is the last of the batch ends the STEP with one tick, each timer
down by one and never below 0; any other leaves the timers alone and the next iteration follows. The early end is the
spec's decision D11; the count is the model's (log 1). -/
def Obligations.IterationEndTicks : Prop :=
  ∀ t : State,
    (t.wait = .running → t.iter + 1 < t.cfg.batch →
      t.endIteration.iter = t.iter + 1 ∧ KeepsAllBut [.iter] t t.endIteration) ∧
    ((t.wait ≠ .running ∨ t.cfg.batch ≤ t.iter + 1) →
      t.endIteration.iter = 0 ∧ t.endIteration.dt.toNat = t.dt.toNat - 1 ∧ t.endIteration.st.toNat = t.st.toNat - 1 ∧
      KeepsAllBut [.iter, .dt, .st] t t.endIteration)

/-- R205: a STEP begun while the latch is closed fetches nothing, reports nothing, and ticks (the spec's decision D12).
-/
def Obligations.StepWhileAwaitingOnlyTicks : Prop :=
  ∀ (s : State) (r : Reg), s.fault = none → s.life ≠ .loadFailed → s.wait = .awaitingKey r →
    ∃ t, step s = .next t ∧ t.dt.toNat = s.dt.toNat - 1 ∧ t.st.toNat = s.st.toNat - 1 ∧
      t.reports = [] ∧ t.iter = 0 ∧ KeepsAllBut [.dt, .st, .reports, .iter, .life] s t

/-- R206, R210: a step of a faulted machine answers the latched fault again; there is no step after RomTooLarge. The
latch is the spec's decision D10, D25; the refusal is the model's word for the missing move (log 17). -/
def Obligations.StoppedMachineStaysStopped : Prop :=
  (∀ (s : State) (f : Fault), s.fault = some f → step s = .fault f ∧ wholeStep s = .fault f) ∧
  (∀ s : State, s.fault = none → s.life = .loadFailed →
    step s = .refused .notStarted ∧ wholeStep s = .refused .notStarted)

/-- R201: a whole STEP, a loop of at most `BATCH` iterations cut short by a closed latch and followed by one tick, is a
run of between 1 and `BATCH` of the model's steps, whatever its outcome. How a STEP is divided is the model's choice
(log 1). -/
def Obligations.WholeStepIsRunOfSteps : Prop :=
  ∀ s : State, s.iter = 0 → 1 ≤ s.cfg.batch →
    ∃ k, 1 ≤ k ∧ k ≤ s.cfg.batch ∧ Host.Core.run core k s = wholeStep s

/-- R271, R207: inside a STEP the keypad and the parameters do not change, and the STEP returns at most `BATCH` reports.
-/
def Obligations.WholeStepKeepsKeypad : Prop :=
  ∀ s t : State, wholeStep s = .next t →
    t.key = s.key ∧ t.cfg = s.cfg ∧ t.iter = s.iter ∧ t.reports.length ≤ s.cfg.batch

/-- Property 7 of the document (R185, R249): however many steps are taken while no key is released, the wait goes on and
PC, the registers, `I`, memory, stack and screen stay; only the timers run down (decision D12). -/
def Obligations.KeyWaitPersists : Prop :=
  ∀ (n : Nat) (s : State) (r : Reg), s.fault = none → s.life ≠ .loadFailed → s.wait = .awaitingKey r →
    ∃ t, Host.Core.run core n s = .next t ∧ t.dt.toNat = s.dt.toNat - n ∧ t.st.toNat = s.st.toNat - n ∧
      KeepsAllBut [.dt, .st, .reports, .iter, .life] s t

/-- R267: a jump to itself repeats for ever: after any number of steps the machine can run on, and nothing but the
timers and the STEP's bookkeeping has changed (R267, which the spec marks as its decision D21). -/
def Obligations.SelfJumpRepeats : Prop :=
  ∀ (s : State) (nnn : Addr12), s.CanRun → s.pc.toNat ≤ 0xFFE → nnn.toNat = s.pc.toNat →
    s.wordAt s.pc.toNat = 0x1#4 ++ nnn →
      ∀ n : Nat, ∃ t, Host.Core.run core n s = .next t ∧ t.CanRun ∧ KeepsAllBut [.dt, .st, .reports, .iter, .life] s t

/-! ### The driver's operations -/

/-- R39, R260, R261: RESET with parameters `p` gives every element its reset value; the interface's reset state is that
with the default parameters. The values of `iter`, `reports`, `draws` and `life` are the model's own (logs 1, 3, 4, 5)
and are left out here; the zeros of I, DT, ST, FB and KEY are the spec's decision D15 (log 10). -/
def Obligations.ResetGivesResetValues : Prop :=
  State.reset = State.resetWith Config.Params.default ∧
  ∀ (p : Config.Params) (u : State), p.wf = true → u.iter = 0 →
    ∃ s, perform (.reset p) u = .answered .done s ∧
      (∀ a, a < 0x050 ∨ 0x09F < a → s.byteAt a = 0) ∧
      (∀ k, (h : k < p.fontData.length) → s.byteAt (0x050 + k) = p.fontData[k]) ∧
      (∀ r, s.reg r = 0) ∧ s.i = 0 ∧ s.pc = 0x0200 ∧ s.sp = 0 ∧ s.dt = 0 ∧ s.st = 0 ∧
      (∀ y x, s.fb.pixel y x = false) ∧ (∀ k, s.pressed k = false) ∧ s.wait = .running ∧ s.fault = none ∧ s.cfg = p

/-- R210: LOAD after RESET puts the image at 0x200 and writes memory only; an image of more than 3584 bytes answers
RomTooLarge; a second or late LOAD is refused (the spec's decision D23; `life` is the model's, logs 5, 17). -/
def Obligations.LoadPlacesImage : Prop :=
  ∀ (bytes : List Byte) (s : State), s.iter = 0 →
    (s.life = .constructed → bytes.length ≤ 3584 → ∃ t, perform (.load bytes) s = .answered .done t ∧
      (∀ k, (h : k < bytes.length) → t.byteAt (0x200 + k) = bytes[k]) ∧
      KeepsBytesOutside 0x200 bytes.length s t ∧ KeepsAllBut [.mem, .life] s t) ∧
    (s.life = .constructed → 3584 < bytes.length →
      ∃ t, perform (.load bytes) s = .answered .romTooLarge t ∧ t.life = .loadFailed) ∧
    (s.life ≠ .constructed → perform (.load bytes) s = .refused .loadOutOfOrder)

/-- R210, U11: after RomTooLarge every operation but RESET is refused, and RESET is not (decision D23, log 17). That RESET
keeps the count of free values is the model's choice (DESIGN CHOICE, log 3). -/
def Obligations.OnlyResetAfterRomTooLarge : Prop :=
  ∀ s : State, s.iter = 0 → s.fault = none → s.life = .loadFailed →
    (∀ op, (∀ p, op ≠ .reset p) → ∃ r, perform op s = .refused r) ∧
    (∀ p, p.wf = true → perform (.reset p) s = .answered .done { State.resetWith p with draws := s.draws })

/-- R208, R209: SET_KEY sets its key; a release ends a wait, giving the code to the awaited register, and otherwise no
register and no latch changes. That every such report is a release, at once, is the spec's decisions D13, D14. -/
def Obligations.SetKeyAndRelease : Prop :=
  ∀ (k : Nibble) (p : Bool) (s : State), s.iter = 0 → s.fault = none → s.life ≠ .loadFailed →
    ∃ t, perform (.setKey k p) s = .answered .done t ∧
      (∀ j, t.pressed j = if j = k then p else s.pressed j) ∧
      (∀ r, p = false → s.wait = .awaitingKey r →
        t.wait = .running ∧ (t.reg r).toNat = k.val ∧ KeepsRegsBut [r] s t) ∧
      ((p = true ∨ s.wait = .running) → t.wait = s.wait ∧ KeepsRegsBut [] s t) ∧
      KeepsAllBut [.key, .v, .wait] s t

/-- R211, R212: the reads return the framebuffer and the sound timer and change nothing; the tone is on while ST > 0.
Where they are answered is log 17. -/
def Obligations.ReadsReturnScreenAndTone : Prop :=
  ∀ s : State, s.iter = 0 → s.life ≠ .loadFailed →
    perform .readFb s = .answered (.framebuffer s.fb) s ∧ perform .readSt s = .answered (.soundTimer s.st) s ∧
    (toneActive s.st = true ↔ s.st.toNat > 0)

/-- R61, R213: no operation of the driver lands inside a STEP, and every operation leaves the machine between STEPs (log
17). -/
def Obligations.OperationsLandBetweenSteps : Prop :=
  (∀ (op : DriverOp) (s : State), s.iter ≠ 0 → perform op s = .refused .operationDuringStep) ∧
  (∀ (op : DriverOp) (s t : State) (r : Reply), perform op s = .answered r t → t.iter = 0)

/-- R206, R34: a fatal fault of a STEP is returned and latched; every further STEP returns it again and does nothing;
LOAD is refused, SET_KEY and the reads leave the fault latched, and RESET clears it. On any faulted machine, no
operation but RESET that is answered changes FAULT. Nothing is said of any other element of the faulted machine but its
parameters (the spec's decisions D10, D25; logs 6, 17, 22). That RESET keeps the count of free values is the model's
choice (DESIGN CHOICE, log 3), no part of R260. -/
def Obligations.FatalFaultLatches : Prop :=
  (∀ (s : State) (f : Fault), s.iter = 0 → s.fault = none → wholeStep s = .fault f →
    ∃ t, perform .step s = .answered (.faulted f) t ∧ t.fault = some f ∧ t.cfg = s.cfg ∧
      perform .step t = .answered (.faulted f) t ∧
      (∀ bytes, perform (.load bytes) t = .refused .loadOutOfOrder) ∧
      (∀ k p, ∃ u, perform (.setKey k p) t = .answered .done u ∧ u.fault = some f) ∧
      perform .readFb t = .answered (.framebuffer t.fb) t ∧ perform .readSt t = .answered (.soundTimer t.st) t ∧
      (∀ p, p.wf = true → perform (.reset p) t = .answered .done { State.resetWith p with draws := t.draws })) ∧
  (∀ (op : DriverOp) (s t : State) (r : Reply) (f : Fault), s.fault = some f → (∀ p, op ≠ .reset p) →
    perform op s = .answered r t → t.fault = some f)

/-! ### The invariant -/

/-- The invariant holds after RESET with any parameters in range; the default ones are in range. What the invariant says
of `iter`, `reports` and `life` is the model's (logs 1, 4, 5). -/
def Obligations.ResetIsSound : Prop :=
  Config.Params.default.wf = true ∧ State.reset.Inv ∧ State.reset.Sound ∧
  ∀ p : Config.Params, p.wf = true → (State.resetWith p).Inv

/-- Every step keeps the invariant: memory stays in canonical form within 0x000 to 0xFFF, PC at most 0x10FE, the stack
within `STACK_DEPTH` with addresses at most 0x1000, the batch within `BATCH`, the latch closed only between STEPs, at
most one report for each iteration, the parameters in range. The bounds are R27's and R28's, the bookkeeping the model's
(logs 1, 4, 5). -/
def Obligations.StepKeepsInvariant : Prop :=
  ∀ s t : State, s.Inv → step s = .next t → t.Inv

/-- Every operation of the driver keeps the invariant (logs 1, 4, 5, 17). -/
def Obligations.OperationsKeepInvariant : Prop :=
  ∀ (op : DriverOp) (s t : State) (r : Reply), s.Inv → perform op s = .answered r t → t.Inv

/-- A state made ready with a table word runs exactly that word next; the decoder reads from the word what it reads from
memory. This is about the model's own interface to the opcode table (logs 15, 16). -/
def Obligations.FetchWordIsFetched : Prop :=
  ∀ (s : State) (w : Nat), w < 65536 →
    (s.withFetchWord 16 w).CanRun ∧ (s.withFetchWord 16 w).pc.toNat ≤ 0xFFE ∧
    ((s.withFetchWord 16 w).wordAt (s.withFetchWord 16 w).pc.toNat).toNat = w ∧
    (∀ i, decodeTableWord 16 w = some i ↔ decode .exact (BitVec.ofNat 16 w) = .ok i) ∧
    (s.CanRun → s.pc.toNat ≤ 0xFFE → KeepsAllBut [.mem] s (s.withFetchWord 16 w) ∧
      KeepsBytesOutside s.pc.toNat 2 s (s.withFetchWord 16 w))

/-! ### Free values -/

/-- R12, R131: a draw is under no law, so no number of a free value is used twice in a run. No instruction, no step and
no operation of the driver, RESET among them, takes the count back; RND, a LOAD that answers RomTooLarge and SET_KEY on a
faulted machine move it on; and after a STEP that faults it is above that of every state the STEP went through. The
numbering is the model's own (DESIGN CHOICE, logs 3, 6, 18, 22). -/
def Obligations.FreeValuesAreNeverReused : Prop :=
  (∀ (i : Instr) (s t : State), exec i s = .next t → s.draws ≤ t.draws) ∧
  (∀ (x : Reg) (nn : Byte) (s t : State), exec (.rnd x nn) s = .next t → s.draws < t.draws) ∧
  (∀ s t : State, step s = .next t → s.draws ≤ t.draws) ∧
  (∀ (op : DriverOp) (s t : State) (r : Reply), perform op s = .answered r t → s.draws ≤ t.draws) ∧
  (∀ (bytes : List Byte) (s t : State), perform (.load bytes) s = .answered .romTooLarge t → s.draws < t.draws) ∧
  (∀ (k : Nibble) (p : Bool) (s t : State) (r : Reply) (f : Fault), s.fault = some f →
    perform (.setKey k p) s = .answered r t → s.draws < t.draws) ∧
  (∀ (s t u : State) (f : Fault) (k : Nat), s.iter = 0 → s.fault = none →
    perform .step s = .answered (.faulted f) t → Host.Core.run core k s = .next u → u.draws < t.draws)
end

