-- ==== Sys2Proof/Laws/Decode.lean ====
section
/-! SUPPORT. The fields of a word and the words of the formats as numbers, and from these what the decoder's fields are of a
word built from its parts: no proof about decoding or encoding needs to look at single bits. -/

namespace Sys2Proof

@[simp] theorem nib_toFin (a : BitVec 4) : nib a.toFin = a := rfl
@[simp] theorem toFin_nib (a : Fin 16) : (nib a).toFin = a := rfl

theorem toNat_append_eq {n m : Nat} (a : BitVec n) (b : BitVec m) :
    (a ++ b).toNat = a.toNat * 2 ^ m + b.toNat := by
  rw [BitVec.toNat_append, ← Nat.shiftLeft_add_eq_or_of_lt b.isLt, Nat.shiftLeft_eq]

/-! ### Fields as numbers (R13, R71) -/

theorem toNat_nibble1 (w : Word) : (nibble1 w).toNat = w.toNat / 4096 := by
  have : w.toNat < 65536 := w.isLt
  simp only [nibble1, BitVec.extractLsb'_toNat, Nat.shiftRight_eq_div_pow]
  omega

theorem val_fieldX (w : Word) : (fieldX w).val = w.toNat / 256 % 16 := by
  show (w.extractLsb' 8 4).toNat = _
  simp only [BitVec.extractLsb'_toNat, Nat.shiftRight_eq_div_pow]

theorem val_fieldY (w : Word) : (fieldY w).val = w.toNat / 16 % 16 := by
  show (w.extractLsb' 4 4).toNat = _
  simp only [BitVec.extractLsb'_toNat, Nat.shiftRight_eq_div_pow]

theorem val_fieldN (w : Word) : (fieldN w).val = w.toNat % 16 := by
  show (w.extractLsb' 0 4).toNat = _
  simp only [BitVec.extractLsb'_toNat, Nat.shiftRight_zero]

theorem toNat_fieldNN (w : Word) : (fieldNN w).toNat = w.toNat % 256 := by
  simp only [fieldNN, BitVec.extractLsb'_toNat, Nat.shiftRight_zero]

theorem toNat_fieldNNN (w : Word) : (fieldNNN w).toNat = w.toNat % 4096 := by
  simp only [fieldNNN, BitVec.extractLsb'_toNat, Nat.shiftRight_zero]

/-! ### Formats as numbers (R72) -/

theorem toNat_formatNNN (op : BitVec 4) (nnn : Addr12) :
    (formatNNN op nnn).toNat = op.toNat * 4096 + nnn.toNat :=
  toNat_append_eq op nnn

theorem toNat_formatXNN (op : BitVec 4) (x : Reg) (nn : Byte) :
    (formatXNN op x nn).toNat = op.toNat * 4096 + x.val * 256 + nn.toNat := by
  show (op ++ nib x ++ nn).toNat = _
  rw [toNat_append_eq, toNat_append_eq]
  show (op.toNat * 2 ^ 4 + x.val) * 2 ^ 8 + nn.toNat = _
  omega

theorem toNat_formatXYN (op : BitVec 4) (x y : Reg) (n : BitVec 4) :
    (formatXYN op x y n).toNat = op.toNat * 4096 + x.val * 256 + y.val * 16 + n.toNat := by
  show (op ++ nib x ++ nib y ++ n).toNat = _
  rw [toNat_append_eq, toNat_append_eq, toNat_append_eq]
  show ((op.toNat * 2 ^ 4 + x.val) * 2 ^ 4 + y.val) * 2 ^ 4 + n.toNat = _
  omega

/-! ### Fields of the formats -/

@[simp] theorem nibble1_formatNNN (op : BitVec 4) (nnn : Addr12) : nibble1 (formatNNN op nnn) = op := by
  have := nnn.isLt
  apply BitVec.eq_of_toNat_eq
  rw [toNat_nibble1, toNat_formatNNN]
  omega

@[simp] theorem fieldNNN_formatNNN (op : BitVec 4) (nnn : Addr12) : fieldNNN (formatNNN op nnn) = nnn := by
  have := nnn.isLt
  apply BitVec.eq_of_toNat_eq
  rw [toNat_fieldNNN, toNat_formatNNN]
  omega

@[simp] theorem nibble1_formatXNN (op : BitVec 4) (x : Reg) (nn : Byte) : nibble1 (formatXNN op x nn) = op := by
  have := nn.isLt
  apply BitVec.eq_of_toNat_eq
  rw [toNat_nibble1, toNat_formatXNN]
  omega

@[simp] theorem fieldX_formatXNN (op : BitVec 4) (x : Reg) (nn : Byte) : fieldX (formatXNN op x nn) = x := by
  have := nn.isLt
  apply Fin.ext
  rw [val_fieldX, toNat_formatXNN]
  omega

@[simp] theorem fieldNN_formatXNN (op : BitVec 4) (x : Reg) (nn : Byte) : fieldNN (formatXNN op x nn) = nn := by
  have := nn.isLt
  apply BitVec.eq_of_toNat_eq
  rw [toNat_fieldNN, toNat_formatXNN]
  omega

@[simp] theorem nibble1_formatXYN (op : BitVec 4) (x y : Reg) (n : BitVec 4) :
    nibble1 (formatXYN op x y n) = op := by
  have := n.isLt
  apply BitVec.eq_of_toNat_eq
  rw [toNat_nibble1, toNat_formatXYN]
  omega

@[simp] theorem fieldX_formatXYN (op : BitVec 4) (x y : Reg) (n : BitVec 4) : fieldX (formatXYN op x y n) = x := by
  have := n.isLt
  apply Fin.ext
  rw [val_fieldX, toNat_formatXYN]
  omega

@[simp] theorem fieldY_formatXYN (op : BitVec 4) (x y : Reg) (n : BitVec 4) : fieldY (formatXYN op x y n) = y := by
  have := n.isLt
  apply Fin.ext
  rw [val_fieldY, toNat_formatXYN]
  omega

@[simp] theorem fieldN_formatXYN (op : BitVec 4) (x y : Reg) (n : BitVec 4) :
    fieldN (formatXYN op x y n) = n.toFin := by
  have := n.isLt
  apply Fin.ext
  rw [val_fieldN, toNat_formatXYN]
  show _ = n.toNat
  omega

/-! ### A word is its parts -/

theorem formatNNN_fields (w : Word) : formatNNN (nibble1 w) (fieldNNN w) = w := by
  apply BitVec.eq_of_toNat_eq
  rw [toNat_formatNNN, toNat_nibble1, toNat_fieldNNN]
  omega

theorem formatXNN_fields (w : Word) : formatXNN (nibble1 w) (fieldX w) (fieldNN w) = w := by
  apply BitVec.eq_of_toNat_eq
  rw [toNat_formatXNN, toNat_nibble1, val_fieldX, toNat_fieldNN]
  omega

theorem formatXYN_fields (w : Word) : formatXYN (nibble1 w) (fieldX w) (fieldY w) (nib (fieldN w)) = w := by
  apply BitVec.eq_of_toNat_eq
  have : (nib (fieldN w)).toNat = w.toNat % 16 := val_fieldN w
  rw [toNat_formatXYN, toNat_nibble1, val_fieldX, val_fieldY, this]
  omega

/-! ### Words and bytes (R53) -/

theorem toNat_wordOfBytes (hi lo : Byte) : (wordOfBytes hi lo).toNat = hi.toNat * 256 + lo.toNat :=
  toNat_append_eq hi lo

theorem toNat_highByte (w : Word) : (highByte w).toNat = w.toNat / 256 := by
  have : w.toNat < 65536 := w.isLt
  simp only [highByte, BitVec.extractLsb'_toNat, Nat.shiftRight_eq_div_pow]
  omega

theorem toNat_lowByte (w : Word) : (lowByte w).toNat = w.toNat % 256 := by
  simp only [lowByte, BitVec.extractLsb'_toNat, Nat.shiftRight_zero]

@[simp] theorem highByte_wordOfBytes (hi lo : Byte) : highByte (wordOfBytes hi lo) = hi := by
  have := lo.isLt
  apply BitVec.eq_of_toNat_eq
  rw [toNat_highByte, toNat_wordOfBytes]
  omega

@[simp] theorem lowByte_wordOfBytes (hi lo : Byte) : lowByte (wordOfBytes hi lo) = lo := by
  have := lo.isLt
  apply BitVec.eq_of_toNat_eq
  rw [toNat_lowByte, toNat_wordOfBytes]
  omega

@[simp] theorem wordOfBytes_bytes (w : Word) : wordOfBytes (highByte w) (lowByte w) = w := by
  apply BitVec.eq_of_toNat_eq
  rw [toNat_wordOfBytes, toNat_highByte, toNat_lowByte]
  omega

end Sys2Proof
end

