-- ==== Sys2Proof/Laws/State.lean ====
section
/-! SUPPORT. One lemma for each field of each update of the state, true by unfolding, so that no later proof unfolds a
record update. -/

namespace Sys2Proof.Machine

/-- The size of memory as a numeral, for arithmetic. -/
@[simp] theorem memSize_eq : Config.memSize = 4096 := rfl

/-! ### setReg -/

@[simp] theorem setReg_mem (s : State) (r : Reg) (x : Byte) : (s.setReg r x).mem = s.mem := rfl
@[simp] theorem setReg_v (s : State) (r : Reg) (x : Byte) : (s.setReg r x).v = s.v.set r x := rfl
@[simp] theorem setReg_i (s : State) (r : Reg) (x : Byte) : (s.setReg r x).i = s.i := rfl
@[simp] theorem setReg_pc (s : State) (r : Reg) (x : Byte) : (s.setReg r x).pc = s.pc := rfl
@[simp] theorem setReg_stack (s : State) (r : Reg) (x : Byte) : (s.setReg r x).stack = s.stack := rfl
@[simp] theorem setReg_dt (s : State) (r : Reg) (x : Byte) : (s.setReg r x).dt = s.dt := rfl
@[simp] theorem setReg_st (s : State) (r : Reg) (x : Byte) : (s.setReg r x).st = s.st := rfl
@[simp] theorem setReg_fb (s : State) (r : Reg) (x : Byte) : (s.setReg r x).fb = s.fb := rfl
@[simp] theorem setReg_key (s : State) (r : Reg) (x : Byte) : (s.setReg r x).key = s.key := rfl
@[simp] theorem setReg_wait (s : State) (r : Reg) (x : Byte) : (s.setReg r x).wait = s.wait := rfl
@[simp] theorem setReg_fault (s : State) (r : Reg) (x : Byte) : (s.setReg r x).fault = s.fault := rfl
@[simp] theorem setReg_cfg (s : State) (r : Reg) (x : Byte) : (s.setReg r x).cfg = s.cfg := rfl
@[simp] theorem setReg_iter (s : State) (r : Reg) (x : Byte) : (s.setReg r x).iter = s.iter := rfl
@[simp] theorem setReg_reports (s : State) (r : Reg) (x : Byte) : (s.setReg r x).reports = s.reports := rfl
@[simp] theorem setReg_draws (s : State) (r : Reg) (x : Byte) : (s.setReg r x).draws = s.draws := rfl
@[simp] theorem setReg_life (s : State) (r : Reg) (x : Byte) : (s.setReg r x).life = s.life := rfl

/-! ### setByte -/

@[simp] theorem setByte_mem (s : State) (a : Nat) (x : Byte) : (s.setByte a x).mem = Memory.write s.cfg.fontData s.mem a x := rfl
@[simp] theorem setByte_v (s : State) (a : Nat) (x : Byte) : (s.setByte a x).v = s.v := rfl
@[simp] theorem setByte_i (s : State) (a : Nat) (x : Byte) : (s.setByte a x).i = s.i := rfl
@[simp] theorem setByte_pc (s : State) (a : Nat) (x : Byte) : (s.setByte a x).pc = s.pc := rfl
@[simp] theorem setByte_stack (s : State) (a : Nat) (x : Byte) : (s.setByte a x).stack = s.stack := rfl
@[simp] theorem setByte_dt (s : State) (a : Nat) (x : Byte) : (s.setByte a x).dt = s.dt := rfl
@[simp] theorem setByte_st (s : State) (a : Nat) (x : Byte) : (s.setByte a x).st = s.st := rfl
@[simp] theorem setByte_fb (s : State) (a : Nat) (x : Byte) : (s.setByte a x).fb = s.fb := rfl
@[simp] theorem setByte_key (s : State) (a : Nat) (x : Byte) : (s.setByte a x).key = s.key := rfl
@[simp] theorem setByte_wait (s : State) (a : Nat) (x : Byte) : (s.setByte a x).wait = s.wait := rfl
@[simp] theorem setByte_fault (s : State) (a : Nat) (x : Byte) : (s.setByte a x).fault = s.fault := rfl
@[simp] theorem setByte_cfg (s : State) (a : Nat) (x : Byte) : (s.setByte a x).cfg = s.cfg := rfl
@[simp] theorem setByte_iter (s : State) (a : Nat) (x : Byte) : (s.setByte a x).iter = s.iter := rfl
@[simp] theorem setByte_reports (s : State) (a : Nat) (x : Byte) : (s.setByte a x).reports = s.reports := rfl
@[simp] theorem setByte_draws (s : State) (a : Nat) (x : Byte) : (s.setByte a x).draws = s.draws := rfl
@[simp] theorem setByte_life (s : State) (a : Nat) (x : Byte) : (s.setByte a x).life = s.life := rfl

/-! ### setI -/

@[simp] theorem setI_mem (s : State) (a : Word) : (s.setI a).mem = s.mem := rfl
@[simp] theorem setI_v (s : State) (a : Word) : (s.setI a).v = s.v := rfl
@[simp] theorem setI_i (s : State) (a : Word) : (s.setI a).i = a := rfl
@[simp] theorem setI_pc (s : State) (a : Word) : (s.setI a).pc = s.pc := rfl
@[simp] theorem setI_stack (s : State) (a : Word) : (s.setI a).stack = s.stack := rfl
@[simp] theorem setI_dt (s : State) (a : Word) : (s.setI a).dt = s.dt := rfl
@[simp] theorem setI_st (s : State) (a : Word) : (s.setI a).st = s.st := rfl
@[simp] theorem setI_fb (s : State) (a : Word) : (s.setI a).fb = s.fb := rfl
@[simp] theorem setI_key (s : State) (a : Word) : (s.setI a).key = s.key := rfl
@[simp] theorem setI_wait (s : State) (a : Word) : (s.setI a).wait = s.wait := rfl
@[simp] theorem setI_fault (s : State) (a : Word) : (s.setI a).fault = s.fault := rfl
@[simp] theorem setI_cfg (s : State) (a : Word) : (s.setI a).cfg = s.cfg := rfl
@[simp] theorem setI_iter (s : State) (a : Word) : (s.setI a).iter = s.iter := rfl
@[simp] theorem setI_reports (s : State) (a : Word) : (s.setI a).reports = s.reports := rfl
@[simp] theorem setI_draws (s : State) (a : Word) : (s.setI a).draws = s.draws := rfl
@[simp] theorem setI_life (s : State) (a : Word) : (s.setI a).life = s.life := rfl

/-! ### setPc -/

@[simp] theorem setPc_mem (s : State) (a : Word) : (s.setPc a).mem = s.mem := rfl
@[simp] theorem setPc_v (s : State) (a : Word) : (s.setPc a).v = s.v := rfl
@[simp] theorem setPc_i (s : State) (a : Word) : (s.setPc a).i = s.i := rfl
@[simp] theorem setPc_pc (s : State) (a : Word) : (s.setPc a).pc = a := rfl
@[simp] theorem setPc_stack (s : State) (a : Word) : (s.setPc a).stack = s.stack := rfl
@[simp] theorem setPc_dt (s : State) (a : Word) : (s.setPc a).dt = s.dt := rfl
@[simp] theorem setPc_st (s : State) (a : Word) : (s.setPc a).st = s.st := rfl
@[simp] theorem setPc_fb (s : State) (a : Word) : (s.setPc a).fb = s.fb := rfl
@[simp] theorem setPc_key (s : State) (a : Word) : (s.setPc a).key = s.key := rfl
@[simp] theorem setPc_wait (s : State) (a : Word) : (s.setPc a).wait = s.wait := rfl
@[simp] theorem setPc_fault (s : State) (a : Word) : (s.setPc a).fault = s.fault := rfl
@[simp] theorem setPc_cfg (s : State) (a : Word) : (s.setPc a).cfg = s.cfg := rfl
@[simp] theorem setPc_iter (s : State) (a : Word) : (s.setPc a).iter = s.iter := rfl
@[simp] theorem setPc_reports (s : State) (a : Word) : (s.setPc a).reports = s.reports := rfl
@[simp] theorem setPc_draws (s : State) (a : Word) : (s.setPc a).draws = s.draws := rfl
@[simp] theorem setPc_life (s : State) (a : Word) : (s.setPc a).life = s.life := rfl

/-! ### tick -/

@[simp] theorem tick_mem (s : State) : (s.tick).mem = s.mem := rfl
@[simp] theorem tick_v (s : State) : (s.tick).v = s.v := rfl
@[simp] theorem tick_i (s : State) : (s.tick).i = s.i := rfl
@[simp] theorem tick_pc (s : State) : (s.tick).pc = s.pc := rfl
@[simp] theorem tick_stack (s : State) : (s.tick).stack = s.stack := rfl
@[simp] theorem tick_dt (s : State) : (s.tick).dt = countDown s.dt := rfl
@[simp] theorem tick_st (s : State) : (s.tick).st = countDown s.st := rfl
@[simp] theorem tick_fb (s : State) : (s.tick).fb = s.fb := rfl
@[simp] theorem tick_key (s : State) : (s.tick).key = s.key := rfl
@[simp] theorem tick_wait (s : State) : (s.tick).wait = s.wait := rfl
@[simp] theorem tick_fault (s : State) : (s.tick).fault = s.fault := rfl
@[simp] theorem tick_cfg (s : State) : (s.tick).cfg = s.cfg := rfl
@[simp] theorem tick_iter (s : State) : (s.tick).iter = s.iter := rfl
@[simp] theorem tick_reports (s : State) : (s.tick).reports = s.reports := rfl
@[simp] theorem tick_draws (s : State) : (s.tick).draws = s.draws := rfl
@[simp] theorem tick_life (s : State) : (s.tick).life = s.life := rfl

/-! ### report -/

@[simp] theorem report_mem (s : State) (w : Word) (a : Nat) : (s.report w a).mem = s.mem := rfl
@[simp] theorem report_v (s : State) (w : Word) (a : Nat) : (s.report w a).v = s.v := rfl
@[simp] theorem report_i (s : State) (w : Word) (a : Nat) : (s.report w a).i = s.i := rfl
@[simp] theorem report_pc (s : State) (w : Word) (a : Nat) : (s.report w a).pc = s.pc := rfl
@[simp] theorem report_stack (s : State) (w : Word) (a : Nat) : (s.report w a).stack = s.stack := rfl
@[simp] theorem report_dt (s : State) (w : Word) (a : Nat) : (s.report w a).dt = s.dt := rfl
@[simp] theorem report_st (s : State) (w : Word) (a : Nat) : (s.report w a).st = s.st := rfl
@[simp] theorem report_fb (s : State) (w : Word) (a : Nat) : (s.report w a).fb = s.fb := rfl
@[simp] theorem report_key (s : State) (w : Word) (a : Nat) : (s.report w a).key = s.key := rfl
@[simp] theorem report_wait (s : State) (w : Word) (a : Nat) : (s.report w a).wait = s.wait := rfl
@[simp] theorem report_fault (s : State) (w : Word) (a : Nat) : (s.report w a).fault = s.fault := rfl
@[simp] theorem report_cfg (s : State) (w : Word) (a : Nat) : (s.report w a).cfg = s.cfg := rfl
@[simp] theorem report_iter (s : State) (w : Word) (a : Nat) : (s.report w a).iter = s.iter := rfl
@[simp] theorem report_reports (s : State) (w : Word) (a : Nat) : (s.report w a).reports = s.reports ++ [⟨w, a⟩] := rfl
@[simp] theorem report_draws (s : State) (w : Word) (a : Nat) : (s.report w a).draws = s.draws := rfl
@[simp] theorem report_life (s : State) (w : Word) (a : Nat) : (s.report w a).life = s.life := rfl

/-! ### beginStep -/

@[simp] theorem beginStep_mem (s : State) : (s.beginStep).mem = s.mem := rfl
@[simp] theorem beginStep_v (s : State) : (s.beginStep).v = s.v := rfl
@[simp] theorem beginStep_i (s : State) : (s.beginStep).i = s.i := rfl
@[simp] theorem beginStep_pc (s : State) : (s.beginStep).pc = s.pc := rfl
@[simp] theorem beginStep_stack (s : State) : (s.beginStep).stack = s.stack := rfl
@[simp] theorem beginStep_dt (s : State) : (s.beginStep).dt = s.dt := rfl
@[simp] theorem beginStep_st (s : State) : (s.beginStep).st = s.st := rfl
@[simp] theorem beginStep_fb (s : State) : (s.beginStep).fb = s.fb := rfl
@[simp] theorem beginStep_key (s : State) : (s.beginStep).key = s.key := rfl
@[simp] theorem beginStep_wait (s : State) : (s.beginStep).wait = s.wait := rfl
@[simp] theorem beginStep_fault (s : State) : (s.beginStep).fault = s.fault := rfl
@[simp] theorem beginStep_cfg (s : State) : (s.beginStep).cfg = s.cfg := rfl
@[simp] theorem beginStep_iter (s : State) : (s.beginStep).iter = s.iter := rfl
@[simp] theorem beginStep_reports (s : State) : (s.beginStep).reports = [] := rfl
@[simp] theorem beginStep_draws (s : State) : (s.beginStep).draws = s.draws := rfl
@[simp] theorem beginStep_life (s : State) : (s.beginStep).life = .started := rfl

/-! ### setResultAndFlag -/

@[simp] theorem setResultAndFlag_mem (s : State) (x : Reg) (b f : Byte) : (s.setResultAndFlag x b f).mem = s.mem := rfl
@[simp] theorem setResultAndFlag_v (s : State) (x : Reg) (b f : Byte) : (s.setResultAndFlag x b f).v = (s.v.set x b).set VF f := rfl
@[simp] theorem setResultAndFlag_i (s : State) (x : Reg) (b f : Byte) : (s.setResultAndFlag x b f).i = s.i := rfl
@[simp] theorem setResultAndFlag_pc (s : State) (x : Reg) (b f : Byte) : (s.setResultAndFlag x b f).pc = s.pc := rfl
@[simp] theorem setResultAndFlag_stack (s : State) (x : Reg) (b f : Byte) : (s.setResultAndFlag x b f).stack = s.stack := rfl
@[simp] theorem setResultAndFlag_dt (s : State) (x : Reg) (b f : Byte) : (s.setResultAndFlag x b f).dt = s.dt := rfl
@[simp] theorem setResultAndFlag_st (s : State) (x : Reg) (b f : Byte) : (s.setResultAndFlag x b f).st = s.st := rfl
@[simp] theorem setResultAndFlag_fb (s : State) (x : Reg) (b f : Byte) : (s.setResultAndFlag x b f).fb = s.fb := rfl
@[simp] theorem setResultAndFlag_key (s : State) (x : Reg) (b f : Byte) : (s.setResultAndFlag x b f).key = s.key := rfl
@[simp] theorem setResultAndFlag_wait (s : State) (x : Reg) (b f : Byte) : (s.setResultAndFlag x b f).wait = s.wait := rfl
@[simp] theorem setResultAndFlag_fault (s : State) (x : Reg) (b f : Byte) : (s.setResultAndFlag x b f).fault = s.fault := rfl
@[simp] theorem setResultAndFlag_cfg (s : State) (x : Reg) (b f : Byte) : (s.setResultAndFlag x b f).cfg = s.cfg := rfl
@[simp] theorem setResultAndFlag_iter (s : State) (x : Reg) (b f : Byte) : (s.setResultAndFlag x b f).iter = s.iter := rfl
@[simp] theorem setResultAndFlag_reports (s : State) (x : Reg) (b f : Byte) : (s.setResultAndFlag x b f).reports = s.reports := rfl
@[simp] theorem setResultAndFlag_draws (s : State) (x : Reg) (b f : Byte) : (s.setResultAndFlag x b f).draws = s.draws := rfl
@[simp] theorem setResultAndFlag_life (s : State) (x : Reg) (b f : Byte) : (s.setResultAndFlag x b f).life = s.life := rfl

/-! ### skipIf, beginIteration, endIteration, keyRelease, setKey: the fields they may touch and the rest -/

@[simp] theorem skipIf_mem (s : State) (c : Bool) : (s.skipIf c).mem = s.mem := by
  cases c <;> rfl
@[simp] theorem skipIf_v (s : State) (c : Bool) : (s.skipIf c).v = s.v := by
  cases c <;> rfl
@[simp] theorem skipIf_i (s : State) (c : Bool) : (s.skipIf c).i = s.i := by
  cases c <;> rfl
@[simp] theorem skipIf_stack (s : State) (c : Bool) : (s.skipIf c).stack = s.stack := by
  cases c <;> rfl
@[simp] theorem skipIf_dt (s : State) (c : Bool) : (s.skipIf c).dt = s.dt := by
  cases c <;> rfl
@[simp] theorem skipIf_st (s : State) (c : Bool) : (s.skipIf c).st = s.st := by
  cases c <;> rfl
@[simp] theorem skipIf_fb (s : State) (c : Bool) : (s.skipIf c).fb = s.fb := by
  cases c <;> rfl
@[simp] theorem skipIf_key (s : State) (c : Bool) : (s.skipIf c).key = s.key := by
  cases c <;> rfl
@[simp] theorem skipIf_wait (s : State) (c : Bool) : (s.skipIf c).wait = s.wait := by
  cases c <;> rfl
@[simp] theorem skipIf_fault (s : State) (c : Bool) : (s.skipIf c).fault = s.fault := by
  cases c <;> rfl
@[simp] theorem skipIf_cfg (s : State) (c : Bool) : (s.skipIf c).cfg = s.cfg := by
  cases c <;> rfl
@[simp] theorem skipIf_iter (s : State) (c : Bool) : (s.skipIf c).iter = s.iter := by
  cases c <;> rfl
@[simp] theorem skipIf_reports (s : State) (c : Bool) : (s.skipIf c).reports = s.reports := by
  cases c <;> rfl
@[simp] theorem skipIf_draws (s : State) (c : Bool) : (s.skipIf c).draws = s.draws := by
  cases c <;> rfl
@[simp] theorem skipIf_life (s : State) (c : Bool) : (s.skipIf c).life = s.life := by
  cases c <;> rfl
@[simp] theorem skipIf_pc (s : State) (c : Bool) : (s.skipIf c).pc = if c then s.pc + 2 else s.pc := by
  cases c <;> rfl

@[simp] theorem beginIteration_mem (s : State) : s.beginIteration.mem = s.mem := by
  unfold State.beginIteration; split <;> rfl
@[simp] theorem beginIteration_v (s : State) : s.beginIteration.v = s.v := by
  unfold State.beginIteration; split <;> rfl
@[simp] theorem beginIteration_i (s : State) : s.beginIteration.i = s.i := by
  unfold State.beginIteration; split <;> rfl
@[simp] theorem beginIteration_pc (s : State) : s.beginIteration.pc = s.pc := by
  unfold State.beginIteration; split <;> rfl
@[simp] theorem beginIteration_stack (s : State) : s.beginIteration.stack = s.stack := by
  unfold State.beginIteration; split <;> rfl
@[simp] theorem beginIteration_dt (s : State) : s.beginIteration.dt = s.dt := by
  unfold State.beginIteration; split <;> rfl
@[simp] theorem beginIteration_st (s : State) : s.beginIteration.st = s.st := by
  unfold State.beginIteration; split <;> rfl
@[simp] theorem beginIteration_fb (s : State) : s.beginIteration.fb = s.fb := by
  unfold State.beginIteration; split <;> rfl
@[simp] theorem beginIteration_key (s : State) : s.beginIteration.key = s.key := by
  unfold State.beginIteration; split <;> rfl
@[simp] theorem beginIteration_wait (s : State) : s.beginIteration.wait = s.wait := by
  unfold State.beginIteration; split <;> rfl
@[simp] theorem beginIteration_fault (s : State) : s.beginIteration.fault = s.fault := by
  unfold State.beginIteration; split <;> rfl
@[simp] theorem beginIteration_cfg (s : State) : s.beginIteration.cfg = s.cfg := by
  unfold State.beginIteration; split <;> rfl
@[simp] theorem beginIteration_iter (s : State) : s.beginIteration.iter = s.iter := by
  unfold State.beginIteration; split <;> rfl
@[simp] theorem beginIteration_draws (s : State) : s.beginIteration.draws = s.draws := by
  unfold State.beginIteration; split <;> rfl
@[simp] theorem beginIteration_reports (s : State) :
    s.beginIteration.reports = if s.iter = 0 then [] else s.reports := by
  unfold State.beginIteration; split <;> rfl
@[simp] theorem beginIteration_life (s : State) :
    s.beginIteration.life = if s.iter = 0 then .started else s.life := by
  unfold State.beginIteration; split <;> rfl

@[simp] theorem endIteration_mem (s : State) : s.endIteration.mem = s.mem := by
  unfold State.endIteration; split <;> rfl
@[simp] theorem endIteration_v (s : State) : s.endIteration.v = s.v := by
  unfold State.endIteration; split <;> rfl
@[simp] theorem endIteration_i (s : State) : s.endIteration.i = s.i := by
  unfold State.endIteration; split <;> rfl
@[simp] theorem endIteration_pc (s : State) : s.endIteration.pc = s.pc := by
  unfold State.endIteration; split <;> rfl
@[simp] theorem endIteration_stack (s : State) : s.endIteration.stack = s.stack := by
  unfold State.endIteration; split <;> rfl
@[simp] theorem endIteration_fb (s : State) : s.endIteration.fb = s.fb := by
  unfold State.endIteration; split <;> rfl
@[simp] theorem endIteration_key (s : State) : s.endIteration.key = s.key := by
  unfold State.endIteration; split <;> rfl
@[simp] theorem endIteration_wait (s : State) : s.endIteration.wait = s.wait := by
  unfold State.endIteration; split <;> rfl
@[simp] theorem endIteration_fault (s : State) : s.endIteration.fault = s.fault := by
  unfold State.endIteration; split <;> rfl
@[simp] theorem endIteration_cfg (s : State) : s.endIteration.cfg = s.cfg := by
  unfold State.endIteration; split <;> rfl
@[simp] theorem endIteration_reports (s : State) : s.endIteration.reports = s.reports := by
  unfold State.endIteration; split <;> rfl
@[simp] theorem endIteration_draws (s : State) : s.endIteration.draws = s.draws := by
  unfold State.endIteration; split <;> rfl
@[simp] theorem endIteration_life (s : State) : s.endIteration.life = s.life := by
  unfold State.endIteration; split <;> rfl

@[simp] theorem keyRelease_mem (s : State) (k : Nibble) : (s.keyRelease k).mem = s.mem := by
  unfold State.keyRelease; split <;> rfl
@[simp] theorem keyRelease_i (s : State) (k : Nibble) : (s.keyRelease k).i = s.i := by
  unfold State.keyRelease; split <;> rfl
@[simp] theorem keyRelease_pc (s : State) (k : Nibble) : (s.keyRelease k).pc = s.pc := by
  unfold State.keyRelease; split <;> rfl
@[simp] theorem keyRelease_stack (s : State) (k : Nibble) : (s.keyRelease k).stack = s.stack := by
  unfold State.keyRelease; split <;> rfl
@[simp] theorem keyRelease_dt (s : State) (k : Nibble) : (s.keyRelease k).dt = s.dt := by
  unfold State.keyRelease; split <;> rfl
@[simp] theorem keyRelease_st (s : State) (k : Nibble) : (s.keyRelease k).st = s.st := by
  unfold State.keyRelease; split <;> rfl
@[simp] theorem keyRelease_fb (s : State) (k : Nibble) : (s.keyRelease k).fb = s.fb := by
  unfold State.keyRelease; split <;> rfl
@[simp] theorem keyRelease_key (s : State) (k : Nibble) : (s.keyRelease k).key = s.key := by
  unfold State.keyRelease; split <;> rfl
@[simp] theorem keyRelease_fault (s : State) (k : Nibble) : (s.keyRelease k).fault = s.fault := by
  unfold State.keyRelease; split <;> rfl
@[simp] theorem keyRelease_cfg (s : State) (k : Nibble) : (s.keyRelease k).cfg = s.cfg := by
  unfold State.keyRelease; split <;> rfl
@[simp] theorem keyRelease_iter (s : State) (k : Nibble) : (s.keyRelease k).iter = s.iter := by
  unfold State.keyRelease; split <;> rfl
@[simp] theorem keyRelease_reports (s : State) (k : Nibble) : (s.keyRelease k).reports = s.reports := by
  unfold State.keyRelease; split <;> rfl
@[simp] theorem keyRelease_draws (s : State) (k : Nibble) : (s.keyRelease k).draws = s.draws := by
  unfold State.keyRelease; split <;> rfl
@[simp] theorem keyRelease_life (s : State) (k : Nibble) : (s.keyRelease k).life = s.life := by
  unfold State.keyRelease; split <;> rfl

@[simp] theorem setKey_mem (s : State) (k : Nibble) (p : Bool) : (s.setKey k p).mem = s.mem := by
  cases p <;> simp [State.setKey]
@[simp] theorem setKey_i (s : State) (k : Nibble) (p : Bool) : (s.setKey k p).i = s.i := by
  cases p <;> simp [State.setKey]
@[simp] theorem setKey_pc (s : State) (k : Nibble) (p : Bool) : (s.setKey k p).pc = s.pc := by
  cases p <;> simp [State.setKey]
@[simp] theorem setKey_stack (s : State) (k : Nibble) (p : Bool) : (s.setKey k p).stack = s.stack := by
  cases p <;> simp [State.setKey]
@[simp] theorem setKey_dt (s : State) (k : Nibble) (p : Bool) : (s.setKey k p).dt = s.dt := by
  cases p <;> simp [State.setKey]
@[simp] theorem setKey_st (s : State) (k : Nibble) (p : Bool) : (s.setKey k p).st = s.st := by
  cases p <;> simp [State.setKey]
@[simp] theorem setKey_fb (s : State) (k : Nibble) (p : Bool) : (s.setKey k p).fb = s.fb := by
  cases p <;> simp [State.setKey]
@[simp] theorem setKey_fault (s : State) (k : Nibble) (p : Bool) : (s.setKey k p).fault = s.fault := by
  cases p <;> simp [State.setKey]
@[simp] theorem setKey_cfg (s : State) (k : Nibble) (p : Bool) : (s.setKey k p).cfg = s.cfg := by
  cases p <;> simp [State.setKey]
@[simp] theorem setKey_iter (s : State) (k : Nibble) (p : Bool) : (s.setKey k p).iter = s.iter := by
  cases p <;> simp [State.setKey]
@[simp] theorem setKey_reports (s : State) (k : Nibble) (p : Bool) : (s.setKey k p).reports = s.reports := by
  cases p <;> simp [State.setKey]
@[simp] theorem setKey_draws (s : State) (k : Nibble) (p : Bool) : (s.setKey k p).draws = s.draws := by
  cases p <;> simp [State.setKey]
@[simp] theorem setKey_life (s : State) (k : Nibble) (p : Bool) : (s.setKey k p).life = s.life := by
  cases p <;> simp [State.setKey]

/-! ### What the readers give after an update -/

theorem reg_setReg (s : State) (r q : Reg) (x : Byte) : (s.setReg r x).reg q = if q = r then x else s.reg q := by
  simp only [State.reg, State.setReg, Fin.getElem_fin, Vector.getElem_set, Fin.ext_iff, eq_comm]

@[simp] theorem reg_setReg_self (s : State) (r : Reg) (x : Byte) : (s.setReg r x).reg r = x := by
  simp [reg_setReg]

@[simp] theorem reg_setReg_ne (s : State) (r q : Reg) (x : Byte) (h : q ≠ r) : (s.setReg r x).reg q = s.reg q := by
  simp [reg_setReg, h]

/-- The flag-last rule as a fact (R23): VF holds the flag, `V[x]` the result where x is not VF, the rest is unchanged. -/
theorem reg_setResultAndFlag (s : State) (x q : Reg) (b f : Byte) :
    (s.setResultAndFlag x b f).reg q = if q = VF then f else if q = x then b else s.reg q := by
  simp [State.setResultAndFlag, reg_setReg]

/-- A reader of the registers sees only `v`. -/
theorem reg_congr {s t : State} (h : t.v = s.v) (r : Reg) : t.reg r = s.reg r := by
  simp [State.reg, h]

/-- A reader of memory sees only `mem` and the font. -/
theorem byteAt_congr {s t : State} (hm : t.mem = s.mem) (hc : t.cfg = s.cfg) (a : Nat) : t.byteAt a = s.byteAt a := by
  simp [State.byteAt, hm, hc]

@[simp] theorem byteAt_setReg (s : State) (r : Reg) (x : Byte) (c : Nat) : (s.setReg r x).byteAt c = s.byteAt c := rfl
@[simp] theorem reg_setByte (s : State) (a : Nat) (x : Byte) (r : Reg) : (s.setByte a x).reg r = s.reg r := rfl
@[simp] theorem reg_setI (s : State) (a : Word) (r : Reg) : (s.setI a).reg r = s.reg r := rfl
@[simp] theorem byteAt_setI (s : State) (a : Word) (c : Nat) : (s.setI a).byteAt c = s.byteAt c := rfl
@[simp] theorem reg_setPc (s : State) (a : Word) (r : Reg) : (s.setPc a).reg r = s.reg r := rfl
@[simp] theorem byteAt_setPc (s : State) (a : Word) (c : Nat) : (s.setPc a).byteAt c = s.byteAt c := rfl
@[simp] theorem reg_tick (s : State) (r : Reg) : (s.tick).reg r = s.reg r := rfl
@[simp] theorem byteAt_tick (s : State) (c : Nat) : (s.tick).byteAt c = s.byteAt c := rfl
@[simp] theorem reg_report (s : State) (w : Word) (a : Nat) (r : Reg) : (s.report w a).reg r = s.reg r := rfl
@[simp] theorem byteAt_report (s : State) (w : Word) (a : Nat) (c : Nat) : (s.report w a).byteAt c = s.byteAt c := rfl
@[simp] theorem reg_beginStep (s : State) (r : Reg) : (s.beginStep).reg r = s.reg r := rfl
@[simp] theorem byteAt_beginStep (s : State) (c : Nat) : (s.beginStep).byteAt c = s.byteAt c := rfl
@[simp] theorem byteAt_setResultAndFlag (s : State) (x : Reg) (b f : Byte) (c : Nat) : (s.setResultAndFlag x b f).byteAt c = s.byteAt c := rfl

end Sys2Proof.Machine
end

