-- ==== Sys2Proof/Laws/Memory.lean ====
section
/-! SUPPORT. Memory as a list of cells: a read after a write, and that every operation keeps the canonical form. The read
laws hold of every list, canonical or not. -/

namespace Sys2Proof.Machine

variable (font : List Byte)

theorem Memory.read_erase (m : Memory) (a b : Nat) :
    Memory.read font (m.erase a) b = if b = a then Memory.blank font a else Memory.read font m b := by
  induction m with
  | nil => by_cases h : b = a <;> simp [Memory.erase, Memory.read, h]
  | cons c m ih =>
    obtain ⟨k, u⟩ := c
    by_cases hk : k = a
    · have h1 : Memory.erase ((k, u) :: m) a = Memory.erase m a := by simp [Memory.erase, hk]
      rw [h1, ih]
      by_cases hb : b = a
      · simp [hb]
      · have : ¬ k = b := fun h => hb (by omega)
        simp [hb, Memory.read, this]
    · have h1 : Memory.erase ((k, u) :: m) a = (k, u) :: Memory.erase m a := by simp [Memory.erase, hk]
      rw [h1]
      by_cases hb : k = b
      · have : ¬ b = a := fun h => hk (by omega)
        simp [Memory.read, hb, this]
      · simp [Memory.read, hb, ih]

theorem Memory.mem_erase (m : Memory) (a : Nat) (c : Host.Cell) : c ∈ m.erase a ↔ c ∈ m ∧ c.1 ≠ a := by
  simp [Memory.erase]

theorem Memory.mem_insert (m : Memory) (a : Nat) (x : Byte) (c : Host.Cell) :
    c ∈ Memory.insert m a x ↔ c = (a, x) ∨ c ∈ m := by
  induction m with
  | nil => simp [Memory.insert]
  | cons d m ih =>
    obtain ⟨k, u⟩ := d
    by_cases h : a < k
    · simp [Memory.insert, h]
    · simp only [Memory.insert, h, if_false, List.mem_cons, ih]
      tauto

theorem Memory.read_insert (m : Memory) (a b : Nat) (x : Byte) (hm : ∀ c ∈ m, c.1 ≠ a) :
    Memory.read font (Memory.insert m a x) b = if b = a then x else Memory.read font m b := by
  induction m with
  | nil =>
    by_cases h : a = b
    · simp [Memory.insert, Memory.read, h]
    · have : ¬ b = a := fun e => h e.symm
      simp [Memory.insert, Memory.read, h, this]
  | cons c m ih =>
    obtain ⟨k, u⟩ := c
    have hk : k ≠ a := hm (k, u) (by simp)
    have ih := ih (fun d hd => hm d (by simp [hd]))
    by_cases h : a < k
    · by_cases hb : b = a
      · simp [Memory.insert, h, Memory.read, hb]
      · have : ¬ a = b := fun e => hb e.symm
        simp [Memory.insert, h, Memory.read, hb, this]
    · by_cases hb : k = b
      · subst hb
        simp [Memory.insert, h, Memory.read, hk]
      · simp [Memory.insert, h, Memory.read, hb, ih]

/-- A read after a write gives the byte written at the same address, and the byte that was there at any other. -/
theorem Memory.read_write (m : Memory) (a b : Nat) (x : Byte) :
    Memory.read font (Memory.write font m a x) b = if b = a then x else Memory.read font m b := by
  unfold Memory.write
  by_cases hx : x = Memory.blank font a
  · by_cases hb : b = a <;> simp [Memory.read_erase, hb, hx]
  · rw [if_neg hx, Memory.read_insert font _ _ _ _ (fun c hc => ((Memory.mem_erase m a c).1 hc).2), Memory.read_erase]
    by_cases hb : b = a <;> simp [hb]

/-- The canonical form, said with propositions. -/
theorem Memory.wf_iff (m : Memory) :
    Memory.wf font m = true ↔
      m.Pairwise (fun c d => c.1 < d.1) ∧ ∀ c ∈ m, c.1 < Config.memSize ∧ c.2 ≠ Memory.blank font c.1 := by
  simp [Memory.wf, List.all_eq_true]

theorem Memory.pairwise_insert (m : Memory) (a : Nat) (x : Byte) (hm : ∀ c ∈ m, c.1 ≠ a)
    (hp : m.Pairwise (fun c d => c.1 < d.1)) : (Memory.insert m a x).Pairwise (fun c d => c.1 < d.1) := by
  induction m with
  | nil => simp [Memory.insert]
  | cons c m ih =>
    obtain ⟨k, u⟩ := c
    have hk : k ≠ a := hm (k, u) (by simp)
    rw [List.pairwise_cons] at hp
    by_cases h : a < k
    · simp only [Memory.insert, h, if_true, List.pairwise_cons, List.mem_cons]
      refine ⟨?_, hp.1, hp.2⟩
      rintro d (rfl | hd)
      · exact h
      · exact lt_trans h (hp.1 d hd)
    · simp only [Memory.insert, h, if_false, List.pairwise_cons, Memory.mem_insert]
      refine ⟨?_, ih (fun d hd => hm d (by simp [hd])) hp.2⟩
      rintro d (rfl | hd)
      · show k < a; omega
      · exact hp.1 d hd

/-- The memory RESET leaves is canonical. -/
theorem Memory.wf_nil : Memory.wf font [] = true := by simp [Memory.wf]

/-- A write within the address space keeps the canonical form. -/
theorem Memory.wf_write (m : Memory) (a : Nat) (x : Byte) (ha : a < Config.memSize) (h : Memory.wf font m = true) :
    Memory.wf font (Memory.write font m a x) = true := by
  rw [Memory.wf_iff] at h ⊢
  have he : (m.erase a).Pairwise (fun c d => c.1 < d.1) := h.1.sublist List.filter_sublist
  have hc : ∀ c ∈ m.erase a, c.1 < Config.memSize ∧ c.2 ≠ Memory.blank font c.1 :=
    fun c hc => h.2 c ((Memory.mem_erase m a c).1 hc).1
  unfold Memory.write
  by_cases hx : x = Memory.blank font a
  · rw [if_pos hx]; exact ⟨he, hc⟩
  · rw [if_neg hx]
    refine ⟨Memory.pairwise_insert _ _ _ (fun c hc => ((Memory.mem_erase m a c).1 hc).2) he, ?_⟩
    intro c hm
    rcases (Memory.mem_insert _ _ _ _).1 hm with rfl | hm
    · exact ⟨ha, hx⟩
    · exact hc c hm

/-! ### Through the state -/

theorem byteAt_setByte (s : State) (a b : Nat) (x : Byte) :
    (s.setByte a x).byteAt b = if b = a then x else s.byteAt b :=
  Memory.read_write _ _ _ _ _

@[simp] theorem byteAt_setByte_self (s : State) (a : Nat) (x : Byte) : (s.setByte a x).byteAt a = x := by
  simp [byteAt_setByte]

/-- Two canonical memories that read the same at every address are equal lists. -/
theorem Memory.ext_of_read {m n : Memory} (hm : Memory.wf font m = true) (hn : Memory.wf font n = true)
    (h : ∀ a, Memory.read font m a = Memory.read font n a) : m = n := by
  rw [Memory.wf_iff] at hm hn
  have key : ∀ (l : Memory), l.Pairwise (fun c d => c.1 < d.1) →
      (∀ c ∈ l, c.1 < Config.memSize ∧ c.2 ≠ Memory.blank font c.1) →
      ∀ c : Host.Cell, c ∈ l ↔ Memory.read font l c.1 = c.2 ∧ c.2 ≠ Memory.blank font c.1 := by
    intro l
    induction l with
    | nil => intro _ _ c; simp only [List.not_mem_nil, Memory.read, false_iff, not_and, not_not]; exact fun e => e.symm
    | cons d l ih =>
      intro hp hc c
      rw [List.pairwise_cons] at hp
      have ih := ih hp.2 (fun e he => hc e (by simp [he])) c
      obtain ⟨k, u⟩ := d
      obtain ⟨a, x⟩ := c
      have hd := hc (k, u) (by simp)
      by_cases hk : k = a
      · subst hk
        have hnot : (k, x) ∉ l := fun hmem => absurd (hp.1 _ hmem) (lt_irrefl k)
        simp only [List.mem_cons, Memory.read, if_true, hnot, or_false, Prod.mk.injEq, true_and]
        constructor
        · rintro rfl; exact ⟨rfl, hd.2⟩
        · rintro ⟨rfl, _⟩; rfl
      · have : ¬ ((a, x) : Host.Cell) = (k, u) := fun e => hk (congrArg Prod.fst e).symm
        simp only [List.mem_cons, this, false_or, Memory.read, hk, if_false]
        exact ih
  have hs : ∀ c, c ∈ m ↔ c ∈ n := fun c => by rw [key m hm.1 hm.2 c, key n hn.1 hn.2 c, h c.1]
  have nd : ∀ l : Memory, l.Pairwise (fun c d => c.1 < d.1) → l.Nodup := fun l hl =>
    hl.imp (fun {c d} hcd => fun e => by rw [e] at hcd; exact lt_irrefl _ hcd)
  exact ((List.perm_ext_iff_of_nodup (nd m hm.1) (nd n hn.1)).2 hs).eq_of_pairwise
    (fun c d _ _ h1 h2 => absurd (lt_trans h1 h2) (lt_irrefl _)) hm.1 hn.1

end Sys2Proof.Machine
end

