-- ==== Sys2Proof/Laws/Ops.lean ====
section
/-! SUPPORT. For each shared operation, what it can do, said once: the provers cite these and do not unfold the
operation. -/

namespace Sys2Proof.Machine

/-! ### Memory accesses -/

theorem memRead_ok (s : State) (a : Nat) (h : a < Config.memSize) : memRead s a = .ok (s.byteAt a) := by
  simp [memRead, h]

theorem memRead_error (s : State) (a : Nat) (h : Config.memSize ≤ a) :
    memRead s a = .error (.memoryOutOfBounds a) := by
  simp [memRead, Nat.not_lt.2 h]

theorem memWrite_ok (s : State) (a : Nat) (x : Byte) (h : a < Config.memSize) :
    memWrite s a x = .ok (s.setByte a x) := by
  simp [memWrite, h]

theorem memWrite_error (s : State) (a : Nat) (x : Byte) (h : Config.memSize ≤ a) :
    memWrite s a x = .error (.memoryOutOfBounds a) := by
  simp [memWrite, Nat.not_lt.2 h]

/-- Only `mem` differs between two states. -/
def OnlyMemChanges (s t : State) : Prop := ∃ m, t = { s with mem := m }

theorem OnlyMemChanges.refl (s : State) : OnlyMemChanges s s := ⟨s.mem, rfl⟩

theorem OnlyMemChanges.trans {s t u : State} (h1 : OnlyMemChanges s t) (h2 : OnlyMemChanges t u) :
    OnlyMemChanges s u := by
  obtain ⟨m, rfl⟩ := h1
  obtain ⟨n, rfl⟩ := h2
  exact ⟨n, rfl⟩

theorem onlyMemChanges_setByte (s : State) (a : Nat) (x : Byte) : OnlyMemChanges s (s.setByte a x) := ⟨_, rfl⟩

/-- Successive stores that all lie in memory: they change memory only, put each byte at its address, leave every other
address alone and keep the canonical form. -/
theorem storeBytes_ok (xs : List Byte) : ∀ (s : State) (a : Nat), a + xs.length ≤ Config.memSize →
    ∃ t, storeBytes s a xs = .ok t ∧ OnlyMemChanges s t ∧
      (∀ b, t.byteAt b = if h : a ≤ b ∧ b < a + xs.length then xs[b - a] else s.byteAt b) ∧
      (Memory.wf s.cfg.fontData s.mem = true → Memory.wf t.cfg.fontData t.mem = true) := by
  induction xs with
  | nil =>
    intro s a _
    refine ⟨s, rfl, .refl s, fun b => ?_, id⟩
    have : ¬ (a ≤ b ∧ b < a + ([] : List Byte).length) := by simp
    rw [dif_neg this]
  | cons x xs ih =>
    intro s a h
    have hl : (x :: xs).length = xs.length + 1 := rfl
    have ha : a < Config.memSize := by omega
    obtain ⟨t, ht, hm, hb, hw⟩ := ih (s.setByte a x) (a + 1) (by omega)
    refine ⟨t, by simp [storeBytes, memWrite_ok s a x ha, ht], (onlyMemChanges_setByte s a x).trans hm,
      fun b => ?_, fun hs => hw (Memory.wf_write _ _ _ _ ha hs)⟩
    rw [hb b, byteAt_setByte]
    by_cases h1 : a + 1 ≤ b ∧ b < a + 1 + xs.length
    · have h2 : a ≤ b ∧ b < a + (x :: xs).length := by omega
      rw [dif_pos h1, dif_pos h2]
      have : b - a = (b - (a + 1)) + 1 := by omega
      simp only [this, List.getElem_cons_succ]
    · rw [dif_neg h1]
      by_cases h3 : b = a
      · subst h3; simp
      · have h2 : ¬ (a ≤ b ∧ b < a + (x :: xs).length) := by omega
        rw [dif_neg h2, if_neg h3]

/-- Successive stores that leave memory: the fault records the first address out of range. -/
theorem storeBytes_error (xs : List Byte) : ∀ (s : State) (a : Nat), xs ≠ [] → Config.memSize < a + xs.length →
    storeBytes s a xs = .error (.memoryOutOfBounds (max a Config.memSize)) := by
  induction xs with
  | nil => intro s a h; exact absurd rfl h
  | cons x xs ih =>
    intro s a _ h
    have hl : (x :: xs).length = xs.length + 1 := rfl
    by_cases ha : a < Config.memSize
    · have hne : xs ≠ [] := by
        rintro rfl
        simp only [List.length_cons, List.length_nil] at h
        omega
      have := ih (s.setByte a x) (a + 1) hne (by omega)
      simp only [storeBytes, memWrite_ok s a x ha, this]
      rw [Nat.max_eq_right (by omega), Nat.max_eq_right (by omega)]
    · simp only [storeBytes, memWrite_error s a x (Nat.not_lt.1 ha)]
      rw [Nat.max_eq_left (by omega)]

/-- Everything successive stores can do. -/
theorem storeBytes_cases (s : State) (a : Nat) (xs : List Byte) :
    (∃ t, storeBytes s a xs = .ok t ∧ OnlyMemChanges s t ∧
      (Memory.wf s.cfg.fontData s.mem = true → Memory.wf t.cfg.fontData t.mem = true)) ∨
    storeBytes s a xs = .error (.memoryOutOfBounds (max a Config.memSize)) := by
  by_cases h : a + xs.length ≤ Config.memSize
  · obtain ⟨t, h1, h2, _, h4⟩ := storeBytes_ok xs s a h
    exact .inl ⟨t, h1, h2, h4⟩
  · by_cases hx : xs = []
    · subst hx
      exact .inl ⟨s, rfl, .refl s, id⟩
    · exact .inr (storeBytes_error xs s a hx (by omega))

/-- Successive reads that all lie in memory. -/
theorem fetchBytes_ok (s : State) : ∀ (n a : Nat), a + n ≤ Config.memSize →
    fetchBytes s a n = .ok ((List.range n).map (fun k => s.byteAt (a + k))) := by
  intro n
  induction n with
  | zero => intro a _; rfl
  | succ n ih =>
    intro a h
    simp only [fetchBytes, memRead_ok s a (by omega), ih (a + 1) (by omega)]
    rw [List.range_succ_eq_map, List.map_cons, List.map_map]
    congr 2
    apply List.map_congr_left
    intro k _
    simp only [Function.comp, Nat.succ_eq_add_one]
    congr 1
    omega

/-- Successive reads that leave memory: the fault records the first address out of range. -/
theorem fetchBytes_error (s : State) : ∀ (n a : Nat), n ≠ 0 → Config.memSize < a + n →
    fetchBytes s a n = .error (.memoryOutOfBounds (max a Config.memSize)) := by
  intro n
  induction n with
  | zero => intro a h; exact absurd rfl h
  | succ n ih =>
    intro a _ h
    by_cases ha : a < Config.memSize
    · have := ih (a + 1) (by omega) (by omega)
      simp only [fetchBytes, memRead_ok s a ha, this]
      rw [Nat.max_eq_right (by omega), Nat.max_eq_right (by omega)]
    · simp only [fetchBytes, memRead_error s a (Nat.not_lt.1 ha)]
      rw [Nat.max_eq_left (by omega)]

/-! ### Registers -/

/-- Only `v` differs between two states. -/
def OnlyRegsChange (s t : State) : Prop := ∃ v, t = { s with v := v }

/-- Consecutive register loads: only registers change. -/
theorem setRegsFrom_only (xs : List Byte) : ∀ (s : State) (k : Nat), OnlyRegsChange s (s.setRegsFrom k xs) := by
  induction xs with
  | nil => intro s k; exact ⟨s.v, rfl⟩
  | cons x xs ih =>
    intro s k
    obtain ⟨v, hv⟩ := ih (s.setReg (Fin.ofNat 16 k) x) (k + 1)
    exact ⟨v, hv⟩

/-- Consecutive register loads: register `r` gets the byte at its place, and one outside the range keeps its value. -/
theorem reg_setRegsFrom (xs : List Byte) : ∀ (s : State) (k : Nat), k + xs.length ≤ 16 → ∀ r : Reg,
    (s.setRegsFrom k xs).reg r = if h : k ≤ r.val ∧ r.val < k + xs.length then xs[r.val - k] else s.reg r := by
  induction xs with
  | nil =>
    intro s k _ r
    have : ¬ (k ≤ r.val ∧ r.val < k + ([] : List Byte).length) := by simp
    rw [dif_neg this]; rfl
  | cons x xs ih =>
    intro s k h r
    have hl : (x :: xs).length = xs.length + 1 := rfl
    have hk : (Fin.ofNat 16 k).val = k := Nat.mod_eq_of_lt (by omega)
    show ((s.setReg (Fin.ofNat 16 k) x).setRegsFrom (k + 1) xs).reg r = _
    rw [ih _ (k + 1) (by omega) r, reg_setReg]
    by_cases h1 : k + 1 ≤ r.val ∧ r.val < k + 1 + xs.length
    · have h2 : k ≤ r.val ∧ r.val < k + (x :: xs).length := by omega
      rw [dif_pos h1, dif_pos h2]
      have : r.val - k = (r.val - (k + 1)) + 1 := by omega
      simp only [this, List.getElem_cons_succ]
    · rw [dif_neg h1]
      by_cases h3 : r = Fin.ofNat 16 k
      · have h4 : r.val = k := by rw [h3, hk]
        have h2 : k ≤ r.val ∧ r.val < k + (x :: xs).length := by omega
        rw [if_pos h3, dif_pos h2]
        simp [h4]
      · have h4 : r.val ≠ k := fun e => h3 (Fin.ext (by rw [e, hk]))
        have h2 : ¬ (k ≤ r.val ∧ r.val < k + (x :: xs).length) := by omega
        rw [if_neg h3, dif_neg h2]

@[simp] theorem length_regsThrough (s : State) (x : Reg) : (s.regsThrough x).length = x.val + 1 := by
  simp [State.regsThrough]

theorem getElem_regsThrough (s : State) (x : Reg) (k : Nat) (h : k < (s.regsThrough x).length) :
    (s.regsThrough x)[k] = s.reg (Fin.ofNat 16 k) := by
  simp [State.regsThrough]

/-! ### The fetch -/

theorem fetch_ok (s : State) (h : s.pc.toNat ≤ 0xFFE) :
    fetch s = .ok (s.wordAt s.pc.toNat, s.setPc (s.pc + 2)) := by
  simp only [fetch, memRead_ok s s.pc.toNat (show _ < 4096 by omega),
    memRead_ok s (s.pc.toNat + 1) (show _ < 4096 by omega)]
  rfl

theorem fetch_error (s : State) (h : 0xFFE < s.pc.toNat) :
    fetch s = .error (.memoryOutOfBounds (max s.pc.toNat 0x1000)) := by
  by_cases h1 : s.pc.toNat < Config.memSize
  · have h1' : s.pc.toNat < 4096 := h1
    simp only [fetch, memRead_ok s _ h1, memRead_error s (s.pc.toNat + 1) (show 4096 ≤ _ by omega)]
    rw [show s.pc.toNat + 1 = max s.pc.toNat 0x1000 by omega]
  · have h1' : 4096 ≤ s.pc.toNat := Nat.not_lt.1 h1
    simp only [fetch, memRead_error s _ h1']
    rw [show max s.pc.toNat 0x1000 = s.pc.toNat by omega]

/-! ### The stack -/

theorem pushPc_ok (s : State) (h : s.sp < s.cfg.stackDepth) : pushPc s = .ok { s with stack := s.pc :: s.stack } := by
  simp [pushPc, h]

theorem pushPc_error (s : State) (h : s.cfg.stackDepth ≤ s.sp) : pushPc s = .error .stackOverflow := by
  simp [pushPc, Nat.not_lt.2 h]

/-- The newest live cell is the head of the list. -/
theorem stackCell_top (s : State) (a : Word) (rest : List Word) (h : s.stack = a :: rest) :
    s.stackCell (s.sp - 1) = some a := by
  simp [State.stackCell, State.sp, h]

/-- A push leaves the older cells where they are. -/
theorem stackCell_push (s : State) (a : Word) (k : Nat) (h : k < s.sp) :
    ({ s with stack := a :: s.stack } : State).stackCell k = s.stackCell k := by
  have hk : k < s.stack.reverse.length := by simpa [State.sp] using h
  simp only [State.stackCell, List.reverse_cons]
  rw [List.getElem?_append_left hk]

theorem stackCell_push_self (s : State) (a : Word) :
    ({ s with stack := a :: s.stack } : State).stackCell s.sp = some a := by
  simp [State.stackCell, State.sp]

/-! ### The framebuffer -/

theorem pixel_setPixel (fb : Framebuffer) (y y' : Fin 32) (x x' : Fin 64) (b : Bool) :
    (fb.setPixel y x b).pixel y' x' = if y' = y ∧ x' = x then b else fb.pixel y' x' := by
  simp only [Framebuffer.pixel, Framebuffer.setPixel, Fin.getElem_fin, Vector.getElem_set]
  by_cases hy : y.val = y'.val
  · have hy' : y' = y := Fin.ext hy.symm
    subst hy'
    by_cases hx : x.val = x'.val
    · have hx' : x' = x := Fin.ext hx.symm
      subst hx'; simp
    · have hx' : ¬ x' = x := fun e => hx (by rw [e])
      simp [hx, hx']
  · have hy' : ¬ y' = y := fun e => hy (by rw [e])
    simp [hy, hy']

@[simp] theorem pixel_clear (y : Fin 32) (x : Fin 64) : Framebuffer.clear.pixel y x = false := by
  simp [Framebuffer.pixel, Framebuffer.clear]

/-- Two framebuffers with the same pixels are equal. -/
theorem Framebuffer.ext_pixel {f g : Framebuffer} (h : ∀ y x, f.pixel y x = g.pixel y x) : f = g := by
  apply Vector.ext
  intro y hy
  apply Vector.ext
  intro x hx
  exact h ⟨y, hy⟩ ⟨x, hx⟩

/-- How far column `x` lies to the right of column `x0`, around the edge. -/
def columnDistance (x0 x : Fin 64) : Nat := (x.val + 64 - x0.val) % 64

/-- The sprite column of a screen column is its distance from the start. -/
theorem screenColumn_eq_iff (x0 x : Fin 64) (c : Nat) (hc : c < 64) :
    x = screenColumn x0 c ↔ columnDistance x0 x = c := by
  have h0 := x0.isLt
  have h1 := x.isLt
  rw [Fin.ext_iff]
  simp only [screenColumn, Fin.ofNat, columnDistance]
  omega

/-- A run of sprite columns, no two the same: each pixel is inverted when its column is in the run with its bit set. -/
theorem foldl_blitPixel (y : Fin 32) (x0 : Fin 64) (b : Byte) (cs : List Nat) : ∀ (d : Framebuffer × Bool),
    cs.Nodup → (∀ c ∈ cs, c < 8) →
    let r := cs.foldl (fun d c => if b.getLsbD (7 - c) then blitPixel y (screenColumn x0 c) d else d) d
    (∀ y' x, r.1.pixel y' x = (d.1.pixel y' x ^^
      decide (y' = y ∧ columnDistance x0 x ∈ cs ∧ b.getLsbD (7 - columnDistance x0 x) = true))) ∧
    (r.2 = true ↔ d.2 = true ∨
      ∃ x, columnDistance x0 x ∈ cs ∧ b.getLsbD (7 - columnDistance x0 x) = true ∧ d.1.pixel y x = true) := by
  induction cs with
  | nil => intro d _ _; simp
  | cons c cs ih =>
    intro d hn hc
    rw [List.nodup_cons] at hn
    have hc8 : c < 8 := hc c (by simp)
    have ih := ih (if b.getLsbD (7 - c) then blitPixel y (screenColumn x0 c) d else d) hn.2
      (fun e he => hc e (by simp [he]))
    simp only [List.foldl_cons]
    obtain ⟨ih1, ih2⟩ := ih
    by_cases hb : b.getLsbD (7 - c) = true
    · simp only [hb, if_true] at ih1 ih2 ⊢
      have hpix : ∀ y' x, (blitPixel y (screenColumn x0 c) d).1.pixel y' x =
          if y' = y ∧ columnDistance x0 x = c then !d.1.pixel y' x else d.1.pixel y' x := by
        intro y' x
        simp only [blitPixel, pixel_setPixel, screenColumn_eq_iff x0 x c (by omega), Bool.xor_true]
        by_cases h : y' = y ∧ columnDistance x0 x = c
        · have hx := (screenColumn_eq_iff x0 x c (by omega)).2 h.2
          rw [if_pos h, if_pos h, h.1, hx]
        · rw [if_neg h, if_neg h]
      constructor
      · intro y' x
        rw [ih1 y' x, hpix y' x]
        by_cases hy : y' = y
        · by_cases hd : columnDistance x0 x = c
          · have : columnDistance x0 x ∉ cs := by rw [hd]; exact hn.1
            simp [hy, hd, hb, hn.1]
          · simp [hy, hd]
        · simp [hy]
      · rw [ih2]
        constructor
        · rintro (h | ⟨x, h1, h2, h3⟩)
          · simp only [blitPixel, Bool.or_eq_true] at h
            rcases h with h | h
            · exact .inl h
            · have hd : columnDistance x0 (screenColumn x0 c) = c := (screenColumn_eq_iff _ _ _ (by omega)).1 rfl
              exact .inr ⟨screenColumn x0 c, by simp [hd], by rw [hd]; exact hb, h⟩
          · have hne : columnDistance x0 x ≠ c := fun e => hn.1 (e ▸ h1)
            rw [hpix y x, if_neg (fun e => hne e.2)] at h3
            exact .inr ⟨x, List.mem_cons_of_mem _ h1, h2, h3⟩
        · rintro (h | ⟨x, h1, h2, h3⟩)
          · exact .inl (by simp [blitPixel, h])
          · by_cases hd : columnDistance x0 x = c
            · have hx := (screenColumn_eq_iff x0 x c (by omega)).2 hd
              exact .inl (by simp [blitPixel, ← hx, h3])
            · refine .inr ⟨x, (List.mem_cons.1 h1).resolve_left hd, h2, ?_⟩
              rw [hpix y x, if_neg (fun e => hd e.2)]; exact h3
    · simp only [hb, if_false, Bool.false_eq_true] at ih1 ih2 ⊢
      have hiff : ∀ x, (columnDistance x0 x ∈ c :: cs ∧ b.getLsbD (7 - columnDistance x0 x) = true) ↔
          (columnDistance x0 x ∈ cs ∧ b.getLsbD (7 - columnDistance x0 x) = true) := by
        intro x
        constructor
        · rintro ⟨h1, h2⟩
          refine ⟨(List.mem_cons.1 h1).resolve_left (fun e => hb (by rw [← e]; exact h2)), h2⟩
        · rintro ⟨h1, h2⟩; exact ⟨List.mem_cons_of_mem _ h1, h2⟩
      constructor
      · intro y' x
        rw [ih1 y' x]
        congr 1
        exact decide_eq_decide.2 (and_congr_right fun _ => (hiff x).symm)
      · rw [ih2]
        refine or_congr_right (exists_congr fun x => ?_)
        rw [← and_assoc, ← and_assoc, hiff x]

/-- One sprite row: a pixel of that row is inverted when its sprite column is one of the eight with its bit set; a
collision is such a pixel found lit. -/
theorem blitRow_spec (y : Fin 32) (x0 : Fin 64) (b : Byte) (d : Framebuffer × Bool) :
    (∀ y' x, (blitRow y x0 b d).1.pixel y' x = (d.1.pixel y' x ^^
      decide (y' = y ∧ columnDistance x0 x < 8 ∧ b.getLsbD (7 - columnDistance x0 x) = true))) ∧
    ((blitRow y x0 b d).2 = true ↔ d.2 = true ∨
      ∃ x, columnDistance x0 x < 8 ∧ b.getLsbD (7 - columnDistance x0 x) = true ∧ d.1.pixel y x = true) := by
  have h := foldl_blitPixel y x0 b [0, 1, 2, 3, 4, 5, 6, 7] d (by decide) (by decide)
  have hm : ∀ k : Nat, k ∈ [0, 1, 2, 3, 4, 5, 6, 7] ↔ k < 8 := by
    intro k
    simp only [List.mem_cons, List.not_mem_nil, or_false]
    omega
  simp only [hm] at h
  exact h

/-- The bit of row `q` of the sprite at column `x`. -/
def State.spriteBit (s : State) (x0 : Fin 64) (q : Nat) (x : Fin 64) : Bool :=
  decide (columnDistance x0 x < 8) && (s.byteAt (s.i.toNat + q)).getLsbD (7 - columnDistance x0 x)

/-- Sprite rows whose bytes lie in memory: the pixels of each drawn row are inverted where the sprite has a set bit, and
a collision is such a pixel found lit. -/
theorem blitRows_ok (s : State) (x0 : Fin 64) (y0 : Fin 32) : ∀ (left r : Nat) (d : Framebuffer × Bool),
    y0.val + r ≤ 32 → (∀ q, r ≤ q → q < r + left → y0.val + q ≤ 32 → s.i.toNat + q < Config.memSize) →
    ∃ e, blitRows s x0 y0 left r d = .ok e ∧
      (∀ (y : Fin 32) x, e.1.pixel y x = (d.1.pixel y x ^^
        decide (y0.val + r ≤ y.val ∧ y.val < y0.val + r + left ∧ s.spriteBit x0 (y.val - y0.val) x = true))) ∧
      (e.2 = true ↔ d.2 = true ∨ ∃ (y : Fin 32) (x : Fin 64), y0.val + r ≤ y.val ∧ y.val < y0.val + r + left ∧
        s.spriteBit x0 (y.val - y0.val) x = true ∧ d.1.pixel y x = true) := by
  intro left
  induction left with
  | zero =>
    intro r d _ _
    refine ⟨d, rfl, fun y x => ?_, ?_⟩
    · have : ¬ (y0.val + r ≤ y.val ∧ y.val < y0.val + r + 0 ∧ s.spriteBit x0 (y.val - y0.val) x = true) := by
        rintro ⟨h1, h2, _⟩; omega
      rw [decide_eq_false this, Bool.xor_false]
    · constructor
      · exact .inl
      · rintro (h | ⟨y, x, h1, h2, _⟩)
        · exact h
        · omega
  | succ left ih =>
    intro r d hr hq
    have hread := memRead_ok s (s.i.toNat + r) (hq r (Nat.le_refl _) (by omega) hr)
    by_cases hc : y0.val + r < 32
    · obtain ⟨h1, h2⟩ := blitRow_spec ⟨y0.val + r, hc⟩ x0 (s.byteAt (s.i.toNat + r)) d
      obtain ⟨e, he, hp, hh⟩ := ih (r + 1) (blitRow ⟨y0.val + r, hc⟩ x0 (s.byteAt (s.i.toNat + r)) d) (by omega)
        (fun q h1 h2 h3 => hq q (by omega) (by omega) h3)
      have hbit : ∀ x, s.spriteBit x0 r x = true ↔ columnDistance x0 x < 8 ∧
          (s.byteAt (s.i.toNat + r)).getLsbD (7 - columnDistance x0 x) = true := by
        intro x; simp [State.spriteBit]
      refine ⟨e, by simp only [blitRows, hread, hc, dif_pos, he], fun y x => ?_, ?_⟩
      · rw [hp y x, h1 y x]
        by_cases hy : y.val = y0.val + r
        · have hy' : y = ⟨y0.val + r, hc⟩ := Fin.ext hy
          have hsub : y.val - y0.val = r := by omega
          have hn : ¬ (y0.val + (r + 1) ≤ y.val) := by omega
          have hl : y0.val + r ≤ y.val ∧ y.val < y0.val + r + (left + 1) := by omega
          simp only [hn, false_and, decide_false, Bool.xor_false, hsub]
          congr 1
          apply decide_eq_decide.2
          constructor
          · rintro ⟨_, h⟩; exact ⟨hl.1, hl.2, (hbit x).2 h⟩
          · rintro ⟨_, _, h⟩; exact ⟨hy', (hbit x).1 h⟩
        · have hy' : ¬ y = ⟨y0.val + r, hc⟩ := fun e => hy (by rw [e])
          simp only [hy', false_and, decide_false, Bool.xor_false]
          congr 1
          apply decide_eq_decide.2
          constructor
          · rintro ⟨h1, h2, h3⟩; exact ⟨by omega, by omega, h3⟩
          · rintro ⟨h1, h2, h3⟩; exact ⟨by omega, by omega, h3⟩
      · rw [hh, h2]
        constructor
        · rintro ((h | ⟨x, h3, h4, h5⟩) | ⟨y, x, h3, h4, h5, h6⟩)
          · exact .inl h
          · refine .inr ⟨⟨y0.val + r, hc⟩, x, Nat.le_refl _, by show y0.val + r < _; omega, ?_, h5⟩
            have : (⟨y0.val + r, hc⟩ : Fin 32).val - y0.val = r := by simp
            rw [this]; exact (hbit x).2 ⟨h3, h4⟩
          · refine .inr ⟨y, x, by omega, by omega, h5, ?_⟩
            have hy' : ¬ y = ⟨y0.val + r, hc⟩ := fun e => by
              have := congrArg Fin.val e
              simp only at this
              omega
            rw [h1 y x] at h6
            simpa [hy'] using h6
        · rintro (h | ⟨y, x, h3, h4, h5, h6⟩)
          · exact .inl (.inl h)
          · by_cases hy : y.val = y0.val + r
            · have hy' : y = ⟨y0.val + r, hc⟩ := Fin.ext hy
              have hsub : y.val - y0.val = r := by omega
              rw [hsub] at h5
              obtain ⟨h7, h8⟩ := (hbit x).1 h5
              exact .inl (.inr ⟨x, h7, h8, hy' ▸ h6⟩)
            · refine .inr ⟨y, x, by omega, by omega, h5, ?_⟩
              have hy' : ¬ y = ⟨y0.val + r, hc⟩ := fun e => hy (by rw [e])
              rw [h1 y x]
              simpa [hy'] using h6
    · refine ⟨d, by simp only [blitRows, hread, hc, dif_neg, not_false_eq_true], fun y x => ?_, ?_⟩
      · have hy := y.isLt
        have : ¬ (y0.val + r ≤ y.val) := by omega
        simp [this]
      · constructor
        · exact .inl
        · rintro (h | ⟨y, x, h1, _⟩)
          · exact h
          · have hy := y.isLt
            omega

/-- A sprite with a byte to be read out of memory: the fault records the first such address. -/
theorem blitRows_error (s : State) (x0 : Fin 64) (y0 : Fin 32) : ∀ (left r : Nat) (d : Framebuffer × Bool),
    y0.val + r ≤ 32 → (∃ q, r ≤ q ∧ q < r + left ∧ y0.val + q ≤ 32 ∧ Config.memSize ≤ s.i.toNat + q) →
    blitRows s x0 y0 left r d = .error (.memoryOutOfBounds (max (s.i.toNat + r) Config.memSize)) := by
  intro left
  induction left with
  | zero => rintro r d _ ⟨q, h1, h2, _⟩; omega
  | succ left ih =>
    rintro r d hr ⟨q, h1, h2, h3, h4⟩
    by_cases hm : s.i.toNat + r < Config.memSize
    · have hq : q ≠ r := fun e => by subst e; omega
      have hc : y0.val + r < 32 := by omega
      have := ih (r + 1) (blitRow ⟨y0.val + r, hc⟩ x0 (s.byteAt (s.i.toNat + r)) d) (by omega)
        ⟨q, by omega, by omega, h3, h4⟩
      simp only [blitRows, memRead_ok s _ hm, hc, dif_pos, this]
      rw [Nat.max_eq_right (by omega), Nat.max_eq_right (by omega)]
    · simp only [blitRows, memRead_error s _ (Nat.not_lt.1 hm)]
      rw [Nat.max_eq_left (by omega)]

/-! ### Timers and latch -/

theorem countDown_toNat (t : Byte) : (countDown t).toNat = t.toNat - 1 := by
  unfold countDown
  by_cases h : t = 0
  · simp [h]
  · have : t.toNat ≠ 0 := fun e => h (BitVec.eq_of_toNat_eq (by simpa using e))
    have h1 : t.toNat < 256 := t.isLt
    have h2 : (1 : Byte).toNat = 1 := rfl
    rw [if_neg h, BitVec.toNat_sub, h2]
    omega

theorem keyRelease_running (s : State) (k : Nibble) (h : s.wait = .running) : s.keyRelease k = s := by
  simp [State.keyRelease, h]

theorem keyRelease_awaiting (s : State) (k : Nibble) (t : Reg) (h : s.wait = .awaitingKey t) :
    s.keyRelease k = { s.setReg t (BitVec.ofNat 8 k.val) with wait := .running } := by
  simp [State.keyRelease, h]

theorem pressed_setKey (s : State) (k j : Nibble) (p : Bool) :
    (s.setKey k p).pressed j = if j = k then p else s.pressed j := by
  have : (s.setKey k p).key = s.key.set k p := by cases p <;> simp [State.setKey]
  simp only [State.pressed, this, Fin.getElem_fin, Vector.getElem_set, Fin.ext_iff, eq_comm]

/-! ### Operands -/

theorem toNat_immAddr (nnn : Addr12) : (immAddr nnn).toNat = nnn.toNat := by
  have : nnn.toNat < 4096 := nnn.isLt
  simp [immAddr]
  omega

theorem toNat_jumpTarget (s : State) (nnn : Addr12) :
    (jumpTarget s nnn).toNat = nnn.toNat + (s.reg (jumpOffsetRegister s nnn)).toNat := by
  have h1 : nnn.toNat < 4096 := nnn.isLt
  have h2 : (s.reg (jumpOffsetRegister s nnn)).toNat < 256 := (s.reg _).isLt
  simp only [jumpTarget, BitVec.toNat_add, toNat_immAddr]
  simp
  omega

theorem toNat_glyphAddr (c : Nibble) : (glyphAddr c).toNat = 0x50 + c.val * 5 := by
  have := c.isLt
  simp [glyphAddr, Config.fontBase]
  omega

@[simp] theorem dataAddr_eq (s : State) (k : Nat) : dataAddr s k = s.i.toNat + k := rfl

theorem flagOf_toNat (c : Bool) : (flagOf c).toNat = if c then 1 else 0 := by
  cases c <;> rfl

end Sys2Proof.Machine
end

