-- ==== Sys2Proof/Laws/Frame.lean ====
section
/-! SUPPORT. What the shared updates keep, in the words of Safety.lean, and what an instruction built over a shared
memory operation can answer. -/

namespace Sys2Proof.Machine

theorem KeepsAllBut.mono {ps qs : List Part} {s t : State} (h : KeepsAllBut ps s t) (hq : ∀ p ∈ ps, p ∈ qs) :
    KeepsAllBut qs s t := fun p hp => h p (fun hm => hp (hq p hm))

theorem KeepsAllBut.rfl {ps : List Part} {s : State} : KeepsAllBut ps s s := by
  intro p _
  cases p <;> simp [Part.same]

theorem KeepsAllBut.trans {ps : List Part} {s t u : State} (h1 : KeepsAllBut ps s t) (h2 : KeepsAllBut ps t u) :
    KeepsAllBut ps s u := by
  intro p hp
  have h1 := h1 p hp
  have h2 := h2 p hp
  cases p <;> simp only [Part.same] at * <;> simp [*]

/-! ### Registers and PC -/

theorem keepsAllBut_setReg (s : State) (x : Reg) (b : Byte) : KeepsAllBut [.v] s (s.setReg x b) := by
  intro p hp
  cases p <;> first | exact absurd (by decide) hp | exact fun _ => Eq.refl _ | exact fun _ _ => Eq.refl _ | exact Eq.refl _

theorem keepsRegsBut_setReg (s : State) (x : Reg) (b : Byte) : KeepsRegsBut [x] s (s.setReg x b) := by
  intro r hr
  rw [reg_setReg, if_neg (by simpa using hr)]

theorem keepsAllBut_setResultAndFlag (s : State) (x : Reg) (b f : Byte) :
    KeepsAllBut [.v] s (s.setResultAndFlag x b f) :=
  (keepsAllBut_setReg s x b).trans (keepsAllBut_setReg _ VF f)

theorem keepsRegsBut_setResultAndFlag (s : State) (x : Reg) (b f : Byte) :
    KeepsRegsBut [x, VF] s (s.setResultAndFlag x b f) := by
  intro r hr
  have hr : r ≠ x ∧ r ≠ VF := by simpa using hr
  rw [State.setResultAndFlag, reg_setReg, if_neg hr.2, reg_setReg, if_neg hr.1]

theorem keepsAllBut_setPc (s : State) (a : Word) : KeepsAllBut [.pc] s (s.setPc a) := by
  intro p hp
  cases p <;> first | exact absurd (by decide) hp | exact fun _ => Eq.refl _ | exact fun _ _ => Eq.refl _ | exact Eq.refl _

theorem keepsAllBut_skipIf (s : State) (c : Bool) : KeepsAllBut [.pc] s (s.skipIf c) := by
  cases c
  · exact .rfl
  · exact keepsAllBut_setPc s _

theorem keepsAllBut_of_onlyRegs {s t : State} (h : OnlyRegsChange s t) : KeepsAllBut [.v] s t := by
  obtain ⟨v, rfl⟩ := h
  intro p hp
  cases p <;> first | exact absurd (by decide) hp | exact fun _ => Eq.refl _ | exact fun _ _ => Eq.refl _ | exact Eq.refl _

/-! ### Memory -/

theorem keepsAllBut_of_onlyMem {s t : State} (h : OnlyMemChanges s t) : KeepsAllBut [.mem] s t := by
  obtain ⟨m, rfl⟩ := h
  intro p hp
  cases p <;> first | exact absurd (by decide) hp | exact fun _ => Eq.refl _ | exact fun _ _ => Eq.refl _ | exact Eq.refl _

/-- An instruction that ends in stores and goes on has changed memory only, and kept its canonical form. -/
theorem finish_storeBytes_next {s t : State} {a : Nat} {xs : List Byte}
    (h : finish (storeBytes s a xs) = .next t) :
    OnlyMemChanges s t ∧ (Memory.wf s.cfg.fontData s.mem = true → Memory.wf t.cfg.fontData t.mem = true) := by
  rcases storeBytes_cases s a xs with ⟨t', h1, h2, h3⟩ | h1 <;> rw [h1] at h
  · cases h; exact ⟨h2, h3⟩
  · cases h

/-- LD Vx,[I] that goes on has changed registers only. -/
theorem execLoadRegs_next {x : Reg} {s t : State} (h : execLoadRegs x s = .next t) : OnlyRegsChange s t := by
  simp only [execLoadRegs] at h
  split at h
  · cases h; exact setRegsFrom_only _ _ _
  · cases h

/-- DRW that goes on has changed the framebuffer and VF only. -/
theorem execDrw_next {x y : Reg} {n : Nibble} {s t : State} (h : execDrw x y n s = .next t) :
    ∃ fb b, t = { s.setReg VF b with fb := fb } := by
  simp only [execDrw] at h
  split at h
  · cases h; exact ⟨_, _, rfl⟩
  · cases h

/-- A CALL that goes on has pushed PC and jumped. -/
theorem execCall_next {nnn : Addr12} {s t : State} (h : execCall nnn s = .next t) :
    s.sp < s.cfg.stackDepth ∧ t = { s with stack := s.pc :: s.stack, pc := immAddr nnn } := by
  by_cases hs : s.sp < s.cfg.stackDepth
  · simp only [execCall, pushPc_ok s hs] at h
    cases h
    exact ⟨hs, Eq.refl _⟩
  · simp only [execCall, pushPc_error s (Nat.not_lt.1 hs)] at h
    cases h

/-- A RET that goes on has popped PC. -/
theorem execRet_next {s t : State} (h : execRet s = .next t) :
    ∃ a rest, s.stack = a :: rest ∧ t = { s with stack := rest, pc := a } := by
  simp only [execRet, popPc] at h
  split at h
  · cases h
  · cases h; exact ⟨_, _, by assumption, Eq.refl _⟩

/-! ### The sprite's vocabulary -/

/-- What a sprite covers, in the terms of the blit's lemmas. -/
theorem spriteCovers_eq (s : State) (x0 : Fin 64) (y0 : Fin 32) (n : Nibble) (r : Fin 32) (c : Fin 64) :
    s.spriteCovers x0 y0 n r c =
      decide (y0.val + 0 ≤ r.val ∧ r.val < y0.val + 0 + n.val ∧ s.spriteBit x0 (r.val - y0.val) c = true) := by
  have hr := r.isLt
  rw [Bool.eq_iff_iff]
  simp only [State.spriteCovers, State.spriteBit, columnDistance, Bool.and_eq_true, decide_eq_true_eq]
  constructor
  · rintro ⟨⟨⟨h1, h2⟩, h3⟩, h4⟩
    exact ⟨h1, by omega, decide_eq_true h3, h4⟩
  · rintro ⟨h1, h2, h3, h4⟩
    exact ⟨⟨⟨h1, by omega⟩, of_decide_eq_true h3⟩, h4⟩

end Sys2Proof.Machine
end

