-- ==== Sys2Proof/Laws/Step.lean ====
section
/-! SUPPORT. The step: what runs it, what it fetches, how an iteration ends, and that the model's own count of
iterations does not reach an instruction. -/

namespace Sys2Proof.Machine

/-! ### Fetching -/

theorem fetch_beginIteration (s : State) (h : s.pc.toNat ≤ 0xFFE) :
    fetch s.beginIteration = .ok (s.wordAt s.pc.toNat, s.fetched) := by
  rw [fetch_ok s.beginIteration (by simpa using h)]
  have e : ∀ a, s.beginIteration.byteAt a = s.byteAt a := fun a => byteAt_congr (by simp) (by simp) a
  simp [State.wordAt, State.fetched, e]

theorem keepsAllBut_fetched (s : State) : KeepsAllBut [.pc, .reports, .life] s s.fetched := by
  intro p hp
  cases p <;> first | exact absurd (by decide) hp | skip
  all_goals simp only [Part.same, State.fetched]
  case mem => exact fun a => byteAt_congr (by simp) (by simp) a
  case v => exact fun r => reg_congr (by simp) r
  case fb => exact fun y x => by simp
  case key => exact fun k => by simp [State.pressed]
  all_goals simp

/-! ### One step -/

theorem step_of_canRun (s : State) (h : s.CanRun) :
    step s = match iteration s.beginIteration with
      | .next s' => .next s'.endIteration
      | .fault f => .fault f
      | .refused r => .refused r := by
  obtain ⟨h1, h2, h3⟩ := h
  simp only [step, h1, h2, h3, if_false] <;> rfl

theorem step_of_faulted (s : State) (f : Fault) (h : s.fault = some f) : step s = .fault f := by
  simp only [step, h] <;> rfl

theorem step_of_awaiting (s : State) (r : Reg) (h1 : s.fault = none) (h2 : s.life ≠ .loadFailed)
    (h3 : s.wait = .awaitingKey r) : step s = .next s.waitingStep := by
  simp only [step, h1, h2, h3, if_false]

/-- A step that goes on was the tick of a closed latch, or an iteration that executed an instruction or reported a word. -/
theorem step_next_cases {s t : State} (hs : step s = .next t) :
    s.fault = none ∧ s.life ≠ .loadFailed ∧
    ((∃ r, s.wait = .awaitingKey r ∧ t = s.waitingStep) ∨
     (s.wait = .running ∧ s.pc.toNat ≤ 0xFFE ∧
      ((∃ i u, decode s.cfg.decodeMode (s.wordAt s.pc.toNat) = .ok i ∧ exec i s.fetched = .next u ∧ t = u.endIteration) ∨
       (∃ e, decode s.cfg.decodeMode (s.wordAt s.pc.toNat) = .error e ∧
         t = (s.fetched.report (s.wordAt s.pc.toNat) s.pc.toNat).endIteration)))) := by
  cases hf : s.fault with
  | some f => rw [step_of_faulted s f hf] at hs; cases hs
  | none =>
    by_cases hl : s.life = .loadFailed
    · simp [step, hf, hl] at hs
    · refine ⟨rfl, hl, ?_⟩
      cases hw : s.wait with
      | awaitingKey r =>
        rw [step_of_awaiting s r hf hl hw] at hs
        cases hs
        exact .inl ⟨r, rfl, rfl⟩
      | running =>
        rw [step_of_canRun s ⟨hf, hl, hw⟩] at hs
        by_cases hp : s.pc.toNat ≤ 0xFFE
        · refine .inr ⟨rfl, hp, ?_⟩
          simp only [iteration, fetch_beginIteration s hp, beginIteration_cfg] at hs
          cases hd : decode s.cfg.decodeMode (s.wordAt s.pc.toNat) with
          | ok i =>
            rw [hd] at hs
            simp only [] at hs
            cases he : exec i s.fetched with
            | next u => rw [he] at hs; cases hs; exact .inl ⟨i, u, rfl, he, rfl⟩
            | fault f => rw [he] at hs; cases hs
            | refused r => rw [he] at hs; cases hs
          | error e =>
            rw [hd] at hs
            simp only [beginIteration_pc] at hs
            cases hs
            exact .inr ⟨e, rfl, rfl⟩
        · simp only [iteration, fetch_error s.beginIteration (by simpa using Nat.not_le.1 hp)] at hs
          cases hs

/-! ### What no instruction writes -/

/-- An instruction leaves the fault latch, the parameters, the keypad and the bookkeeping of the STEP alone. -/
theorem exec_keeps_bookkeeping {i : Instr} {s t : State} (h : exec i s = .next t) :
    t.fault = s.fault ∧ t.life = s.life ∧ t.cfg = s.cfg ∧ t.iter = s.iter ∧ t.reports = s.reports ∧ t.key = s.key := by
  cases i
  case drw x y n => obtain ⟨fb, b, rfl⟩ := execDrw_next h; simp
  case loadRegs x => obtain ⟨v, rfl⟩ := execLoadRegs_next h; simp
  case ldB x => obtain ⟨⟨m, rfl⟩, -⟩ := finish_storeBytes_next h; simp
  case storeRegs x => obtain ⟨⟨m, rfl⟩, -⟩ := finish_storeBytes_next h; simp
  case ret => obtain ⟨a, rest, -, rfl⟩ := execRet_next h; simp
  case call nnn => obtain ⟨-, rfl⟩ := execCall_next h; simp
  case addI x => simp only [exec, execAddI] at h; cases h; split <;> simp
  case rnd x nn => cases h; simp [rndWith]
  all_goals (cases h; simp)

/-- An iteration that goes on executed an instruction past the fetch, or reported a word. -/
theorem iteration_next_cases {s t : State} (h : iteration s = .next t) :
    (∃ i, exec i (s.setPc (s.pc + 2)) = .next t) ∨ ∃ w, t = (s.setPc (s.pc + 2)).report w s.pc.toNat := by
  by_cases hp : s.pc.toNat ≤ 0xFFE
  · simp only [iteration, fetch_ok s hp] at h
    split at h
    · exact .inl ⟨_, h⟩
    · cases h; exact .inr ⟨_, rfl⟩
  · simp only [iteration, fetch_error s (Nat.not_le.1 hp)] at h
    cases h

/-- An iteration leaves the fault latch, the parameters, the keypad and the STEP's bookkeeping but its reports alone. -/
theorem iteration_keeps_bookkeeping {s t : State} (h : iteration s = .next t) :
    t.fault = s.fault ∧ t.life = s.life ∧ t.cfg = s.cfg ∧ t.iter = s.iter ∧ t.key = s.key := by
  rcases iteration_next_cases h with ⟨i, hi⟩ | ⟨w, rfl⟩
  · obtain ⟨h1, h2, h3, h4, -, h6⟩ := exec_keeps_bookkeeping hi
    exact ⟨h1, h2, h3, h4, h6⟩
  · exact ⟨rfl, rfl, rfl, rfl, rfl⟩

/-! ### The end of an iteration -/

theorem endIteration_goesOn (t : State) (h1 : t.wait = .running) (h2 : t.iter + 1 < t.cfg.batch) :
    t.endIteration = { t with iter := t.iter + 1 } := by
  simp [State.endIteration, h1, h2]

theorem endIteration_ends (t : State) (h : t.wait ≠ .running ∨ t.cfg.batch ≤ t.iter + 1) :
    t.endIteration = { t.tick with iter := 0 } := by
  unfold State.endIteration
  rw [if_neg]
  rintro ⟨h1, h2⟩
  rcases h with h | h
  · exact h h1
  · omega

/-! ### Runs -/

theorem run_succ (M : Host.Core) (k : Nat) (s : M.State) :
    M.run (k + 1) s = match M.step s with
      | .next s' => M.run k s'
      | .fault f => .fault f
      | .refused r => .refused r := rfl

theorem run_of_next (M : Host.Core) (k : Nat) (s t : M.State) (h : M.step s = .next t) :
    M.run (k + 1) s = M.run k t := by
  rw [run_succ, h]

theorem run_of_fault (M : Host.Core) (k : Nat) (s : M.State) (f : M.Fault) (h : M.step s = .fault f) :
    M.run (k + 1) s = .fault f := by
  rw [run_succ, h]

theorem run_of_refused (M : Host.Core) (k : Nat) (s : M.State) (r : M.Refusal) (h : M.step s = .refused r) :
    M.run (k + 1) s = .refused r := by
  rw [run_succ, h]

theorem run_succ_next (k : Nat) (s t : State) (h : step s = .next t) :
    Host.Core.run core (k + 1) s = Host.Core.run core k t :=
  run_of_next core k s t h

theorem run_succ_fault (k : Nat) (s : State) (f : Fault) (h : step s = .fault f) :
    Host.Core.run core (k + 1) s = .fault f :=
  run_of_fault core k s f h

theorem run_succ_refused (k : Nat) (s : State) (r : Refusal) (h : step s = .refused r) :
    Host.Core.run core (k + 1) s = .refused r :=
  run_of_refused core k s r h

/-! ### The iteration count does not reach an instruction -/

/-- An outcome with another iteration count in its next state. -/
def Result.withIter (n : Nat) : Result → Result
  | .next s => .next { s with iter := n }
  | .fault f => .fault f
  | .refused r => .refused r

theorem storeBytes_withIter (n : Nat) (xs : List Byte) : ∀ (s : State) (a : Nat),
    storeBytes { s with iter := n } a xs =
      match storeBytes s a xs with | .ok t => .ok { t with iter := n } | .error f => .error f := by
  induction xs with
  | nil => intro s a; rfl
  | cons x xs ih =>
    intro s a
    by_cases h : a < Config.memSize
    · simp only [storeBytes, memWrite_ok _ a x h]
      exact ih (s.setByte a x) (a + 1)
    · simp only [storeBytes, memWrite_error _ a x (Nat.not_lt.1 h)]

theorem fetchBytes_withIter (n : Nat) (s : State) : ∀ (k a : Nat),
    fetchBytes { s with iter := n } a k = fetchBytes s a k := by
  intro k
  induction k with
  | zero => intro a; rfl
  | succ k ih => intro a; simp only [fetchBytes, ih]; rfl

theorem setRegsFrom_withIter (n : Nat) (xs : List Byte) : ∀ (s : State) (k : Nat),
    ({ s with iter := n } : State).setRegsFrom k xs = { s.setRegsFrom k xs with iter := n } := by
  induction xs with
  | nil => intro s k; rfl
  | cons x xs ih => intro s k; exact ih (s.setReg (Fin.ofNat 16 k) x) (k + 1)

theorem blitRows_withIter (n : Nat) (s : State) (x0 : Fin 64) (y0 : Fin 32) : ∀ (left r : Nat) (d : Framebuffer × Bool),
    blitRows { s with iter := n } x0 y0 left r d = blitRows s x0 y0 left r d := by
  intro left
  induction left with
  | zero => intro r d; rfl
  | succ left ih => intro r d; simp only [blitRows, ih]; rfl

theorem skipIf_withIter (n : Nat) (s : State) (c : Bool) :
    ({ s with iter := n } : State).skipIf c = { s.skipIf c with iter := n } := by
  cases c <;> rfl

/-- An instruction does not read the iteration count and does not write it. -/
theorem exec_withIter (n : Nat) (i : Instr) (s : State) :
    exec i { s with iter := n } = Result.withIter n (exec i s) := by
  cases i with
  | ret =>
    simp only [exec, execRet, popPc]
    cases s.stack <;> rfl
  | call nnn =>
    by_cases h : s.sp < s.cfg.stackDepth
    · have h' : ({ s with iter := n } : State).sp < s.cfg.stackDepth := h
      simp only [exec, execCall, pushPc_ok s h, pushPc_ok { s with iter := n } h']
      rfl
    · have h' : s.cfg.stackDepth ≤ ({ s with iter := n } : State).sp := Nat.not_lt.1 h
      simp only [exec, execCall, pushPc_error s (Nat.not_lt.1 h), pushPc_error { s with iter := n } h']
      rfl
  | seImm x nn => exact congrArg Host.Outcome.next (skipIf_withIter n s _)
  | sneImm x nn => exact congrArg Host.Outcome.next (skipIf_withIter n s _)
  | seReg x y => exact congrArg Host.Outcome.next (skipIf_withIter n s _)
  | sneReg x y => exact congrArg Host.Outcome.next (skipIf_withIter n s _)
  | skp x => exact congrArg Host.Outcome.next (skipIf_withIter n s _)
  | sknp x => exact congrArg Host.Outcome.next (skipIf_withIter n s _)
  | addI x =>
    simp only [exec, execAddI, Result.withIter]
    have e : setsIndexFlag { s with iter := n } x = setsIndexFlag s x := rfl
    rw [e]
    cases setsIndexFlag s x <;> rfl
  | drw x y k =>
    have e := blitRows_withIter n s (spriteColumn s x) (spriteRow s y) k.val 0 (s.fb, false)
    have e' : execDrw x y k { s with iter := n } =
        match blitRows { s with iter := n } (spriteColumn s x) (spriteRow s y) k.val 0 (s.fb, false) with
        | .ok (fb, hit) => .next { ({ s with iter := n } : State).setReg VF (collisionFlag hit) with fb := fb }
        | .error f => raise f := rfl
    show execDrw x y k { s with iter := n } = _
    rw [e', e]
    simp only [exec, execDrw]
    cases blitRows s (spriteColumn s x) (spriteRow s y) k.val 0 (s.fb, false) <;> rfl
  | ldB x =>
    have e := storeBytes_withIter n (decimalDigits (s.reg x)) s (dataAddr s 0)
    show finish (storeBytes { s with iter := n } (dataAddr s 0) (decimalDigits (s.reg x))) = _
    rw [e]
    simp only [exec, execLdB]
    cases storeBytes s (dataAddr s 0) (decimalDigits (s.reg x)) <;> rfl
  | storeRegs x =>
    have e := storeBytes_withIter n (s.regsThrough x) s (dataAddr s 0)
    show finish (storeBytes { s with iter := n } (dataAddr s 0) (s.regsThrough x)) = _
    rw [e]
    simp only [exec, execStoreRegs]
    cases storeBytes s (dataAddr s 0) (s.regsThrough x) <;> rfl
  | loadRegs x =>
    have e := fetchBytes_withIter n s (x.val + 1) (dataAddr s 0)
    have e' : execLoadRegs x { s with iter := n } =
        match fetchBytes { s with iter := n } (dataAddr s 0) (x.val + 1) with
        | .ok xs => .next (({ s with iter := n } : State).setRegsFrom 0 xs)
        | .error f => raise f := rfl
    show execLoadRegs x { s with iter := n } = _
    rw [e', e]
    simp only [exec, execLoadRegs]
    cases fetchBytes s (dataAddr s 0) (x.val + 1) with
    | error f => rfl
    | ok xs => exact congrArg Host.Outcome.next (setRegsFrom_withIter n xs s 0)
  | cls => rfl
  | jp nnn => rfl
  | ldImm x nn => rfl
  | addImm x nn => rfl
  | ldReg x y => rfl
  | orReg x y => rfl
  | andReg x y => rfl
  | xorReg x y => rfl
  | addReg x y => rfl
  | sub x y => rfl
  | shr x y => rfl
  | subn x y => rfl
  | shl x y => rfl
  | ldI nnn => rfl
  | jpV0 nnn => rfl
  | rnd x nn => rfl
  | ldVxDt x => rfl
  | ldVxK x => rfl
  | ldDtVx x => rfl
  | ldStVx x => rfl
  | ldF x => rfl

theorem fetch_withIter (n : Nat) (s : State) :
    fetch { s with iter := n } = match fetch s with | .ok (w, t) => .ok (w, { t with iter := n }) | .error f => .error f := by
  by_cases h : s.pc.toNat ≤ 0xFFE
  · rw [fetch_ok s h, fetch_ok { s with iter := n } h]
    rfl
  · rw [fetch_error s (Nat.not_le.1 h), fetch_error { s with iter := n } (Nat.not_le.1 h)]

/-- Nor does an iteration. -/
theorem iteration_withIter (n : Nat) (s : State) :
    iteration { s with iter := n } = Result.withIter n (iteration s) := by
  have e : iteration { s with iter := n } =
      match fetch { s with iter := n } with
      | .error f => raise f
      | .ok (w, s') =>
        match decode s.cfg.decodeMode w with
        | .ok i => exec i s'
        | .error _ => .next (s'.report w s.pc.toNat) := rfl
  rw [e, fetch_withIter]
  simp only [iteration]
  cases fetch s with
  | error f => rfl
  | ok p =>
    obtain ⟨w, t⟩ := p
    cases hd : decode s.cfg.decodeMode w with
    | ok i => simp only [hd, exec_withIter]
    | error e => simp only [hd]; rfl

end Sys2Proof.Machine
end

