-- ==== Sys2Proof/Laws/Driver.lean ====
section
/-! SUPPORT. The driver's operations: what LOAD writes, what RESET leaves in memory, what SET_KEY keeps, what a table word
made ready to be fetched changes. -/

namespace Sys2Proof.Machine

/-! ### STEP -/

/-- A batch that ends well ends with a tick at the point it reaches. -/
theorem batchFrom_next : ∀ {left : Nat} {s t : State}, batchFrom left s = .next t → t = (batchReach left s).tick
  | 0, s, t, h => by cases h; rfl
  | left + 1, s, t, h => by
    simp only [batchFrom] at h
    simp only [batchReach]
    cases hi : iteration s with
    | fault f => rw [hi] at h; cases h
    | refused r => rw [hi] at h; cases h
    | next u =>
      simp only [hi] at h ⊢
      by_cases hw : u.wait = .running
      · rw [if_pos hw] at h ⊢; exact batchFrom_next h
      · rw [if_neg hw] at h ⊢; cases h; rfl

/-- A batch that faults faults in the iteration it reaches. -/
theorem batchFrom_fault : ∀ {left : Nat} {s : State} {f : Fault}, batchFrom left s = .fault f →
    iteration (batchReach left s) = .fault f
  | 0, s, f, h => by cases h
  | left + 1, s, f, h => by
    simp only [batchFrom] at h
    simp only [batchReach]
    cases hi : iteration s with
    | fault g => rw [hi] at h; cases h; simpa using hi
    | refused r => rw [hi] at h; cases h
    | next u =>
      simp only [hi] at h ⊢
      by_cases hw : u.wait = .running
      · rw [if_pos hw] at h ⊢; exact batchFrom_fault h
      · rw [if_neg hw] at h; cases h

/-- The point a batch reaches keeps what an iteration keeps. -/
theorem batchReach_keeps_bookkeeping : ∀ (left : Nat) (s : State),
    (batchReach left s).fault = s.fault ∧ (batchReach left s).life = s.life ∧ (batchReach left s).cfg = s.cfg ∧
      (batchReach left s).iter = s.iter ∧ (batchReach left s).key = s.key
  | 0, s => ⟨rfl, rfl, rfl, rfl, rfl⟩
  | left + 1, s => by
    simp only [batchReach]
    cases hi : iteration s with
    | fault f => exact ⟨rfl, rfl, rfl, rfl, rfl⟩
    | refused r => exact ⟨rfl, rfl, rfl, rfl, rfl⟩
    | next u =>
      obtain ⟨h1, h2, h3, h4, h5⟩ := iteration_keeps_bookkeeping hi
      by_cases hw : u.wait = .running
      · obtain ⟨g1, g2, g3, g4, g5⟩ := batchReach_keeps_bookkeeping left u
        simp only [hw, if_true]
        exact ⟨g1.trans h1, g2.trans h2, g3.trans h3, g4.trans h4, g5.trans h5⟩
      · simp only [hw, if_false]
        exact ⟨h1, h2, h3, h4, h5⟩

/-! ### The latched machine -/

@[simp] theorem latchFault_fault (f : Fault) (s : State) : (s.latchFault f).fault = some f := rfl
@[simp] theorem latchFault_cfg (f : Fault) (s : State) : (s.latchFault f).cfg = s.cfg := rfl
@[simp] theorem latchFault_iter (f : Fault) (s : State) : (s.latchFault f).iter = 0 := rfl
@[simp] theorem latchFault_draws (f : Fault) (s : State) : (s.latchFault f).draws = s.draws + 1 := rfl
@[simp] theorem loadRejected_draws (s : State) (bytes : List Byte) : (s.loadRejected bytes).draws = s.draws + 1 := rfl
@[simp] theorem latchFault_life (f : Fault) (s : State) : (s.latchFault f).life = s.life := rfl

theorem settle_faulted (s : State) (f : Fault) (h : s.fault = some f) : s.settle = s.latchFault f := by
  simp only [State.settle, h]

theorem settle_running (s : State) (h : s.fault = none) : s.settle = s := by
  simp only [State.settle, h]

/-! ### LOAD -/

/-- Bytes put at ascending addresses: memory only changes, each byte stands at its place, the rest is as before, and the
canonical form is kept within the address space. -/
theorem setBytesFrom_spec (xs : List Byte) : ∀ (s : State) (a : Nat),
    OnlyMemChanges s (s.setBytesFrom a xs) ∧
    (∀ b, (s.setBytesFrom a xs).byteAt b = if h : a ≤ b ∧ b < a + xs.length then xs[b - a] else s.byteAt b) ∧
    (a + xs.length ≤ Config.memSize → Memory.wf s.cfg.fontData s.mem = true →
      Memory.wf s.cfg.fontData (s.setBytesFrom a xs).mem = true) := by
  induction xs with
  | nil =>
    intro s a
    refine ⟨.refl s, fun b => ?_, fun _ => id⟩
    have : ¬ (a ≤ b ∧ b < a + ([] : List Byte).length) := by simp
    rw [dif_neg this]; rfl
  | cons x xs ih =>
    intro s a
    have hl : (x :: xs).length = xs.length + 1 := rfl
    obtain ⟨h1, h2, h3⟩ := ih (s.setByte a x) (a + 1)
    refine ⟨(onlyMemChanges_setByte s a x).trans h1, fun b => ?_, fun h hw => ?_⟩
    · show ((s.setByte a x).setBytesFrom (a + 1) xs).byteAt b = _
      rw [h2 b, byteAt_setByte]
      by_cases h1 : a + 1 ≤ b ∧ b < a + 1 + xs.length
      · have h2 : a ≤ b ∧ b < a + (x :: xs).length := by omega
        rw [dif_pos h1, dif_pos h2]
        have : b - a = (b - (a + 1)) + 1 := by omega
        simp only [this, List.getElem_cons_succ]
      · rw [dif_neg h1]
        by_cases h3 : b = a
        · subst h3; simp
        · have h2 : ¬ (a ≤ b ∧ b < a + (x :: xs).length) := by omega
          rw [dif_neg h2, if_neg h3]
    · have hm : Config.memSize = 4096 := rfl
      exact h3 (by omega) (Memory.wf_write _ _ _ _ (by omega) hw)

/-! ### RESET -/

theorem blank_outside_font (font : List Byte) (a : Nat) (h : a < 0x050 ∨ 0x09F < a) : Memory.blank font a = 0 := by
  have h1 : Config.fontBase = 0x050 := rfl
  have h2 : Config.fontSize = 80 := rfl
  unfold Memory.blank
  rw [if_neg (by omega)]

theorem blank_inside_font (font : List Byte) (k : Nat) (hk : k < 80) (hl : k < font.length) :
    Memory.blank font (0x050 + k) = font[k] := by
  have h1 : Config.fontBase = 0x050 := rfl
  have h2 : Config.fontSize = 80 := rfl
  unfold Memory.blank
  rw [if_pos (by omega), List.getD_eq_getElem?_getD, h1]
  simp [hl]

theorem fontData_length (p : Config.Params) (h : p.wf = true) : p.fontData.length = 80 := by
  simp only [Config.Params.wf, Config.Params.fontOk, Bool.and_eq_true, decide_eq_true_eq] at h
  exact h.2

/-! ### SET_KEY -/

theorem setKey_pressed (s : State) (k : Nibble) : s.setKey k true = { s with key := s.key.set k true } := rfl

theorem setKey_released_running (s : State) (k : Nibble) (h : s.wait = .running) :
    s.setKey k false = { s with key := s.key.set k false } :=
  keyRelease_running { s with key := s.key.set k false } k h

theorem setKey_released_awaiting (s : State) (k : Nibble) (r : Reg) (h : s.wait = .awaitingKey r) :
    s.setKey k false = { s.setReg r (BitVec.ofNat 8 k.val) with key := s.key.set k false, wait := .running } :=
  keyRelease_awaiting { s with key := s.key.set k false } k r h

/-! ### A table word made ready -/

/-- The state whose bytes `withFetchWord` sets. -/
def State.readied (s : State) : State :=
  { s with pc := s.fetchAddr, wait := .running, fault := none, life := if s.life = .loadFailed then .loaded else s.life }

theorem withFetchWord_eq (s : State) (nbits w : Nat) :
    s.withFetchWord nbits w =
      (s.readied.setByte s.fetchAddr.toNat (highByte (tableWord nbits w))).setByte (s.fetchAddr.toNat + 1)
        (lowByte (tableWord nbits w)) := rfl

theorem fetchAddr_le (s : State) : s.fetchAddr.toNat ≤ 0xFFE := by
  unfold State.fetchAddr
  split
  · assumption
  · decide

theorem tableWord_16 (w : Nat) : tableWord 16 w = BitVec.ofNat 16 w := by
  apply BitVec.eq_of_toNat_eq
  simp [tableWord]

end Sys2Proof.Machine
end

