-- ==== Sys2Proof/Laws/PerInstr.lean ====
section
/-! SUPPORT. Statements made for each instruction, one lemma for each constructor. Family `TableRow`: the word an instruction
encodes to is one the opcode table's row selects, its bits under the row's mask being the row's match. -/

namespace Sys2Proof.Laws.TableRow

/-- The row's `mask` in spec/opcode_table.json. -/
def mask : Instr → Word
  | .cls | .ret => 0xFFFF
  | .jp _ | .call _ | .ldI _ | .jpV0 _ => 0xF000
  | .seImm _ _ | .sneImm _ _ | .ldImm _ _ | .addImm _ _ | .rnd _ _ => 0xF000
  | .drw _ _ _ => 0xF000
  | .seReg _ _ | .sneReg _ _ => 0xF00F
  | .ldReg _ _ | .orReg _ _ | .andReg _ _ | .xorReg _ _ | .addReg _ _ => 0xF00F
  | .sub _ _ | .shr _ _ | .subn _ _ | .shl _ _ => 0xF00F
  | .skp _ | .sknp _ => 0xF0FF
  | .ldVxDt _ | .ldVxK _ | .ldDtVx _ | .ldStVx _ | .addI _ | .ldF _ | .ldB _ | .storeRegs _ | .loadRegs _ => 0xF0FF

/-- The row's `match` in spec/opcode_table.json. -/
def pattern : Instr → Word
  | .cls => 0x00E0
  | .ret => 0x00EE
  | .jp _ => 0x1000
  | .call _ => 0x2000
  | .seImm _ _ => 0x3000
  | .sneImm _ _ => 0x4000
  | .seReg _ _ => 0x5000
  | .ldImm _ _ => 0x6000
  | .addImm _ _ => 0x7000
  | .ldReg _ _ => 0x8000
  | .orReg _ _ => 0x8001
  | .andReg _ _ => 0x8002
  | .xorReg _ _ => 0x8003
  | .addReg _ _ => 0x8004
  | .sub _ _ => 0x8005
  | .shr _ _ => 0x8006
  | .subn _ _ => 0x8007
  | .shl _ _ => 0x800E
  | .sneReg _ _ => 0x9000
  | .ldI _ => 0xA000
  | .jpV0 _ => 0xB000
  | .rnd _ _ => 0xC000
  | .drw _ _ _ => 0xD000
  | .skp _ => 0xE09E
  | .sknp _ => 0xE0A1
  | .ldVxDt _ => 0xF007
  | .ldVxK _ => 0xF00A
  | .ldDtVx _ => 0xF015
  | .ldStVx _ => 0xF018
  | .addI _ => 0xF01E
  | .ldF _ => 0xF029
  | .ldB _ => 0xF033
  | .storeRegs _ => 0xF055
  | .loadRegs _ => 0xF065

/-- The instruction's word lies in its row. -/
def Statement (i : Instr) : Prop := encode i &&& mask i = pattern i

theorem and_append_eq {n m : Nat} (a c : BitVec n) (b d : BitVec m) : (a ++ b) &&& (c ++ d) = (a &&& c) ++ (b &&& d) := by
  ext i hi
  simp only [BitVec.getElem_and, BitVec.getElem_append]
  split <;> simp

theorem and_ones {n : Nat} (a : BitVec n) : a &&& BitVec.allOnes n = a := BitVec.and_allOnes

theorem and_zeros {n : Nat} (a : BitVec n) : a &&& 0#n = 0#n := BitVec.and_zero

/-- Mask 0xF000 keeps the selector of format NNN. -/
theorem formatNNN_and (op : BitVec 4) (nnn : Addr12) : formatNNN op nnn &&& 0xF000 = formatNNN op 0 := by
  refine (and_append_eq op (BitVec.allOnes 4) nnn 0#12).trans ?_
  simp only [and_ones, and_zeros]
  rfl

/-- Mask 0xF000 keeps the selector of format XNN. -/
theorem formatXNN_and_F000 (op : BitVec 4) (x : Reg) (nn : Byte) :
    formatXNN op x nn &&& 0xF000 = formatXNN op 0 0 := by
  refine (and_append_eq (op ++ nib x) (BitVec.allOnes 4 ++ 0#4) nn 0#8).trans ?_
  simp only [and_append_eq, and_ones, and_zeros]
  rfl

/-- Mask 0xF0FF keeps the two selectors of format X. -/
theorem formatXNN_and_F0FF (op : BitVec 4) (x : Reg) (nn : Byte) :
    formatXNN op x nn &&& 0xF0FF = formatXNN op 0 nn := by
  refine (and_append_eq (op ++ nib x) (BitVec.allOnes 4 ++ 0#4) nn (BitVec.allOnes 8)).trans ?_
  simp only [and_append_eq, and_ones, and_zeros]
  rfl

/-- Mask 0xF00F keeps the two selectors of format XY. -/
theorem formatXYN_and_F00F (op : BitVec 4) (x y : Reg) (n : BitVec 4) :
    formatXYN op x y n &&& 0xF00F = formatXYN op 0 0 n := by
  refine (and_append_eq (op ++ nib x ++ nib y) (BitVec.allOnes 4 ++ 0#4 ++ 0#4) n (BitVec.allOnes 4)).trans ?_
  simp only [and_append_eq, and_ones, and_zeros]
  rfl

/-- Mask 0xF000 keeps the selector of format XYN. -/
theorem formatXYN_and_F000 (op : BitVec 4) (x y : Reg) (n : BitVec 4) :
    formatXYN op x y n &&& 0xF000 = formatXYN op 0 0 0 := by
  refine (and_append_eq (op ++ nib x ++ nib y) (BitVec.allOnes 4 ++ 0#4 ++ 0#4) n 0#4).trans ?_
  simp only [and_append_eq, and_ones, and_zeros]
  rfl

theorem cls : Statement .cls := rfl

theorem ret : Statement .ret := rfl

theorem jp (nnn : Addr12) : Statement (.jp nnn) := (formatNNN_and _ _).trans rfl

theorem call (nnn : Addr12) : Statement (.call nnn) := (formatNNN_and _ _).trans rfl

theorem seImm (x : Reg) (nn : Byte) : Statement (.seImm x nn) := (formatXNN_and_F000 _ _ _).trans rfl

theorem sneImm (x : Reg) (nn : Byte) : Statement (.sneImm x nn) := (formatXNN_and_F000 _ _ _).trans rfl

theorem seReg (x y : Reg) : Statement (.seReg x y) := (formatXYN_and_F00F _ _ _ _).trans rfl

theorem ldImm (x : Reg) (nn : Byte) : Statement (.ldImm x nn) := (formatXNN_and_F000 _ _ _).trans rfl

theorem addImm (x : Reg) (nn : Byte) : Statement (.addImm x nn) := (formatXNN_and_F000 _ _ _).trans rfl

theorem ldReg (x y : Reg) : Statement (.ldReg x y) := (formatXYN_and_F00F _ _ _ _).trans rfl

theorem orReg (x y : Reg) : Statement (.orReg x y) := (formatXYN_and_F00F _ _ _ _).trans rfl

theorem andReg (x y : Reg) : Statement (.andReg x y) := (formatXYN_and_F00F _ _ _ _).trans rfl

theorem xorReg (x y : Reg) : Statement (.xorReg x y) := (formatXYN_and_F00F _ _ _ _).trans rfl

theorem addReg (x y : Reg) : Statement (.addReg x y) := (formatXYN_and_F00F _ _ _ _).trans rfl

theorem sub (x y : Reg) : Statement (.sub x y) := (formatXYN_and_F00F _ _ _ _).trans rfl

theorem shr (x y : Reg) : Statement (.shr x y) := (formatXYN_and_F00F _ _ _ _).trans rfl

theorem subn (x y : Reg) : Statement (.subn x y) := (formatXYN_and_F00F _ _ _ _).trans rfl

theorem shl (x y : Reg) : Statement (.shl x y) := (formatXYN_and_F00F _ _ _ _).trans rfl

theorem sneReg (x y : Reg) : Statement (.sneReg x y) := (formatXYN_and_F00F _ _ _ _).trans rfl

theorem ldI (nnn : Addr12) : Statement (.ldI nnn) := (formatNNN_and _ _).trans rfl

theorem jpV0 (nnn : Addr12) : Statement (.jpV0 nnn) := (formatNNN_and _ _).trans rfl

theorem rnd (x : Reg) (nn : Byte) : Statement (.rnd x nn) := (formatXNN_and_F000 _ _ _).trans rfl

theorem drw (x y : Reg) (n : Nibble) : Statement (.drw x y n) := (formatXYN_and_F000 _ _ _ _).trans rfl

theorem skp (x : Reg) : Statement (.skp x) := (formatXNN_and_F0FF _ _ _).trans rfl

theorem sknp (x : Reg) : Statement (.sknp x) := (formatXNN_and_F0FF _ _ _).trans rfl

theorem ldVxDt (x : Reg) : Statement (.ldVxDt x) := (formatXNN_and_F0FF _ _ _).trans rfl

theorem ldVxK (x : Reg) : Statement (.ldVxK x) := (formatXNN_and_F0FF _ _ _).trans rfl

theorem ldDtVx (x : Reg) : Statement (.ldDtVx x) := (formatXNN_and_F0FF _ _ _).trans rfl

theorem ldStVx (x : Reg) : Statement (.ldStVx x) := (formatXNN_and_F0FF _ _ _).trans rfl

theorem addI (x : Reg) : Statement (.addI x) := (formatXNN_and_F0FF _ _ _).trans rfl

theorem ldF (x : Reg) : Statement (.ldF x) := (formatXNN_and_F0FF _ _ _).trans rfl

theorem ldB (x : Reg) : Statement (.ldB x) := (formatXNN_and_F0FF _ _ _).trans rfl

theorem storeRegs (x : Reg) : Statement (.storeRegs x) := (formatXNN_and_F0FF _ _ _).trans rfl

theorem loadRegs (x : Reg) : Statement (.loadRegs x) := (formatXNN_and_F0FF _ _ _).trans rfl

end Sys2Proof.Laws.TableRow
end

