-- ==== Sys2Proof/Tests/Slice0.lean ====
section
/-! SUPPORT. The model's own tests: each expected result is a pattern of `30_encoding.md` R75 written out by hand or a vector
T<n>, S<n> of `95_test_vectors.md`; none is the model's own answer. At the end, for each obligation with hypotheses, a state and
operands that meet them. -/

open Sys2Proof Sys2Proof.Machine
open Sys2Proof.Config (Params)

namespace Sys2Proof.Tests

/-! ### Building states -/

/-- The parameters of the test vectors: the defaults with `BATCH = 1`. -/
def bench : Params := { Params.default with batch := 1 }

/-- The start state of a vector: reset, with a word at 0x200. -/
def start (w : Nat) : State := (State.resetWith bench).withFetchWord 16 w

/-- The same under other parameters. -/
def startWith (p : Params) (w : Nat) : State := (State.resetWith p).withFetchWord 16 w

/-- Some registers set. -/
def withRegs (s : State) (rs : List (Reg × Byte)) : State := rs.foldl (fun s r => s.setReg r.1 r.2) s

/-- Some bytes of memory set. -/
def withBytes (s : State) (a : Nat) (xs : List Byte) : State := s.setBytesFrom a xs

/-- A pixel lit. -/
def withPixel (s : State) (y : Fin 32) (x : Fin 64) : State := { s with fb := s.fb.setPixel y x true }

/-- Whether an outcome is a next state of which `p` holds. -/
def after (o : Result) (p : State → Bool) : Bool :=
  match o with
  | .next s => p s
  | _ => false

/-- Whether an outcome is this fault. -/
def faultsWith (o : Result) (f : Fault) : Bool :=
  match o with
  | .fault g => decide (g = f)
  | _ => false

/-- Whether an operation is answered so that `p` holds. -/
def answers (o : OpOutcome) (p : Reply → State → Bool) : Bool :=
  match o with
  | .answered r s => p r s
  | .refused _ => false

/-- Whether an operation is refused. -/
def isRefused (o : OpOutcome) : Bool :=
  match o with
  | .answered _ _ => false
  | .refused _ => true

/-- The lit pixels of a framebuffer, among those listed, and how many are lit in all. -/
def litOnly (fb : Framebuffer) (ps : List (Fin 32 × Fin 64)) : Bool :=
  ps.all (fun p => fb.pixel p.1 p.2) &&
    decide ((fb.toList.map (fun row => row.toList.countP id)).sum = ps.length)

/-! ### WellFormed: ill-formed parameters and images are refused, each check on its own -/

theorem test_wf_default : Params.default.wf = true := by decide

theorem test_wf_stack_depth_zero :
    (Params.depthOk { Params.default with stackDepth := 0 } = false) ∧
    isRefused (perform (.reset { Params.default with stackDepth := 0 }) State.reset) = true := by decide

theorem test_wf_batch_zero :
    (Params.batchOk { Params.default with batch := 0 } = false) ∧
    isRefused (perform (.reset { Params.default with batch := 0 }) State.reset) = true := by decide

theorem test_wf_font_short :
    (Params.fontOk { Params.default with fontData := List.replicate 79 0 } = false) ∧
    isRefused (perform (.reset { Params.default with fontData := List.replicate 79 0 }) State.reset) = true := by decide

/-- T150, T151: 3584 bytes fit and 3585 do not. -/
theorem test_wf_image (x : Byte) :
    Rom.fits (List.replicate 3584 x) = true ∧ Rom.fits (List.replicate 3585 x) = false := by
  have h : ∀ n, Rom.fits (List.replicate n x) = decide (n ≤ 3584) := fun n => by
    simp only [Rom.fits, List.length_replicate]
  rw [h, h]
  decide

/-! ### Decode: the pattern of R75 of every constructor, written out bit by bit -/

theorem test_decode_control_flow :
    decode .exact 0b0000000011101110 = .ok .ret ∧
    decode .exact 0b0001101010111100 = .ok (.jp 0xABC) ∧
    decode .exact 0b0010101010111100 = .ok (.call 0xABC) ∧
    decode .exact 0b0011101011000101 = .ok (.seImm 0xA 0xC5) ∧
    decode .exact 0b0100101011000101 = .ok (.sneImm 0xA 0xC5) ∧
    decode .exact 0b0101101011000000 = .ok (.seReg 0xA 0xC) ∧
    decode .exact 0b1001101011000000 = .ok (.sneReg 0xA 0xC) ∧
    decode .exact 0b1011101010111100 = .ok (.jpV0 0xABC) := by decide

theorem test_decode_alu :
    decode .exact 0b0110101011000101 = .ok (.ldImm 0xA 0xC5) ∧
    decode .exact 0b0111101011000101 = .ok (.addImm 0xA 0xC5) ∧
    decode .exact 0b1000101011000000 = .ok (.ldReg 0xA 0xC) ∧
    decode .exact 0b1000101011000001 = .ok (.orReg 0xA 0xC) ∧
    decode .exact 0b1000101011000010 = .ok (.andReg 0xA 0xC) ∧
    decode .exact 0b1000101011000011 = .ok (.xorReg 0xA 0xC) ∧
    decode .exact 0b1000101011000100 = .ok (.addReg 0xA 0xC) ∧
    decode .exact 0b1000101011000101 = .ok (.sub 0xA 0xC) ∧
    decode .exact 0b1000101011000110 = .ok (.shr 0xA 0xC) ∧
    decode .exact 0b1000101011000111 = .ok (.subn 0xA 0xC) ∧
    decode .exact 0b1000101011001110 = .ok (.shl 0xA 0xC) ∧
    decode .exact 0b1100101011000101 = .ok (.rnd 0xA 0xC5) := by decide

theorem test_decode_index_memory :
    decode .exact 0b1010101010111100 = .ok (.ldI 0xABC) ∧
    decode .exact 0b1111101000011110 = .ok (.addI 0xA) ∧
    decode .exact 0b1111101000101001 = .ok (.ldF 0xA) ∧
    decode .exact 0b1111101000110011 = .ok (.ldB 0xA) ∧
    decode .exact 0b1111101001010101 = .ok (.storeRegs 0xA) ∧
    decode .exact 0b1111101001100101 = .ok (.loadRegs 0xA) := by decide

theorem test_decode_display_timers_keypad :
    decode .exact 0b0000000011100000 = .ok .cls ∧
    decode .exact 0b1101101011000101 = .ok (.drw 0xA 0xC 5) ∧
    decode .exact 0b1110101010011110 = .ok (.skp 0xA) ∧
    decode .exact 0b1110101010100001 = .ok (.sknp 0xA) ∧
    decode .exact 0b1111101000000111 = .ok (.ldVxDt 0xA) ∧
    decode .exact 0b1111101000001010 = .ok (.ldVxK 0xA) ∧
    decode .exact 0b1111101000010101 = .ok (.ldDtVx 0xA) ∧
    decode .exact 0b1111101000011000 = .ok (.ldStVx 0xA) := by decide

/-- T130 to T140: the words no instruction has under EXACT. -/
theorem test_decode_unknown :
    [0x0000, 0x0123, 0x00E1, 0x00FE, 0x01E0, 0x0AEE, 0x5121, 0x9AB7, 0x8128, 0x812F, 0x8129, 0xE100, 0xE19F, 0xE1A0,
      0xF100, 0xF164, 0xF1FF, 0xF11F, 0xFFFF].all (fun w => decide (decode .exact w = .error (.unknownInstruction w))) = true := by
  decide

/-- T130 to T140 under TABLE2: four of them are instructions there. -/
theorem test_decode_table2 :
    decode .table2 0x01E0 = .ok .cls ∧ decode .table2 0x0AEE = .ok .ret ∧
    decode .table2 0x5121 = .ok (.seReg 1 2) ∧ decode .table2 0x9AB7 = .ok (.sneReg 0xA 0xB) ∧
    [0x0000, 0x0123, 0x00E1, 0x00FE, 0x8128, 0x812F, 0xE19F, 0xF11F, 0xFFFF].all
      (fun w => decide (decode .table2 w = .error (.unknownInstruction w))) = true := by decide

/-- R70: two bytes at a time, the first the high one; a single byte is no instruction. -/
theorem test_decode_bytes :
    decodeBytes .exact [0x60, 0x05, 0x70] = .ok (.ldImm 0 5, [0x70]) ∧ decodeBytes .exact [0x60] = .error .truncated := by
  decide

theorem test_decode_table_word :
    decodeTableWord 16 0x9AB0 = some (.sneReg 0xA 0xB) ∧ decodeTableWord 16 0x9AB1 = none := by decide

/-! ### Memory -/

/-- Writing what an unlisted address reads as removes its cell: equal memories are equal lists (log 11). -/
theorem test_memory_canonical :
    ((State.reset.setByte 0x300 7).setByte 0x250 8).mem = [(0x250, 8), (0x300, 7)] ∧
    ((State.reset.setByte 0x300 7).setByte 0x300 0).mem = [] ∧
    ((State.reset.setByte 0x050 0).setByte 0x050 0xF0).mem = [] := by decide

/-- T153: the font block and its edges. -/
theorem test_reset_font :
    State.reset.byteAt 0x050 = 0xF0 ∧ State.reset.byteAt 0x051 = 0x90 ∧ State.reset.byteAt 0x054 = 0xF0 ∧
    State.reset.byteAt 0x04F = 0 ∧ State.reset.byteAt 0x0A0 = 0 ∧ State.reset.pc = 0x200 := by decide

/-! ### Control flow -/

/-- T1. -/
theorem test_jp : after (step (start 0x1ABC)) (fun t => decide (t.pc = 0xABC ∧ t.sp = 0)) = true := by decide
/-- T18: the jump to 0xFFF is no fault; the next fetch is, at its second byte. -/
theorem test_jp_then_fetch_faults :
    after (step (start 0x1FFF)) (fun t => decide (t.pc = 0xFFF) && faultsWith (step t) (.memoryOutOfBounds 0x1000)) = true := by
  decide
/-- T3: the sixteenth address fits. -/
theorem test_call :
    after (step { start 0x2300 with stack := List.replicate 15 0x456 })
      (fun t => decide (t.pc = 0x300 ∧ t.sp = 16 ∧ t.stackCell 15 = some 0x202 ∧ t.stackCell 14 = some 0x456)) = true := by
  decide
/-- T4. -/
theorem test_call_overflow :
    faultsWith (step { start 0x2300 with stack := List.replicate 16 0x456 }) .stackOverflow = true := by decide
/-- T6. -/
theorem test_ret :
    after (step { start 0x00EE with stack := [0x456, 0x202] })
      (fun t => decide (t.pc = 0x456 ∧ t.sp = 1 ∧ t.stackCell 0 = some 0x202)) = true := by decide
/-- T5. -/
theorem test_ret_underflow : faultsWith (step (start 0x00EE)) .stackUnderflow = true := by decide
/-- T7. -/
theorem test_se_imm_skips : after (step (withRegs (start 0x332A) [(3, 0x2A)])) (fun t => decide (t.pc = 0x204)) = true := by
  decide
/-- T8. -/
theorem test_se_imm_stays : after (step (withRegs (start 0x332A) [(3, 0x2B)])) (fun t => decide (t.pc = 0x202)) = true := by
  decide
/-- T9. -/
theorem test_sne_imm_stays : after (step (withRegs (start 0x432A) [(3, 0x2A)])) (fun t => decide (t.pc = 0x202)) = true := by
  decide
/-- T10. -/
theorem test_sne_imm_skips : after (step (withRegs (start 0x432A) [(3, 0x2B)])) (fun t => decide (t.pc = 0x204)) = true := by
  decide
/-- T11. -/
theorem test_se_reg_self : after (step (withRegs (start 0x5330) [(3, 0x99)])) (fun t => decide (t.pc = 0x204)) = true := by
  decide
/-- T14. -/
theorem test_se_reg : after (step (withRegs (start 0x5120) [(1, 1), (2, 2)])) (fun t => decide (t.pc = 0x202)) = true := by
  decide
/-- T13. -/
theorem test_sne_reg : after (step (withRegs (start 0x9120) [(1, 1), (2, 2)])) (fun t => decide (t.pc = 0x204)) = true := by
  decide
/-- T12. -/
theorem test_sne_reg_self : after (step (withRegs (start 0x9330) [(3, 0x99)])) (fun t => decide (t.pc = 0x202)) = true := by
  decide
/-- T16. -/
theorem test_jp_v0_by_vx :
    after (step (withRegs (startWith { bench with jumpOffsetReg := .vx } 0xB234) [(0, 0x10), (2, 1)]))
      (fun t => decide (t.pc = 0x235)) = true := by decide
/-- T17: beyond memory, no fault before the next fetch. -/
theorem test_jp_v0_beyond :
    after (step (withRegs (start 0xBFFF) [(0, 0xFF)]))
      (fun t => decide (t.pc = 0x10FE) && faultsWith (step t) (.memoryOutOfBounds 0x10FE)) = true := by decide

/-! ### Arithmetic and logic -/

/-- T20. -/
theorem test_ld_imm : after (step (start 0x6AFF)) (fun t => decide (t.reg 0xA = 0xFF ∧ t.pc = 0x202)) = true := by decide
/-- T21. -/
theorem test_add_imm_wraps :
    after (step (withRegs (start 0x7102) [(1, 0xFF), (VF, 0x55)])) (fun t => decide (t.reg 1 = 1 ∧ t.reg VF = 0x55)) = true := by
  decide
/-- T22. -/
theorem test_add_imm_into_vf : after (step (withRegs (start 0x7F02) [(VF, 0xFF)])) (fun t => decide (t.reg VF = 1)) = true := by
  decide
/-- T23. -/
theorem test_ld_reg :
    after (step (withRegs (start 0x8120) [(1, 0xF0), (2, 0x3C), (VF, 9)]))
      (fun t => decide (t.reg 1 = 0x3C ∧ t.reg 2 = 0x3C ∧ t.reg VF = 9)) = true := by decide
/-- T24. -/
theorem test_or :
    after (step (withRegs (start 0x8121) [(1, 0xF0), (2, 0x3C), (VF, 9)]))
      (fun t => decide (t.reg 1 = 0xFC ∧ t.reg VF = 9)) = true := by decide
/-- T25. -/
theorem test_and :
    after (step (withRegs (start 0x8122) [(1, 0xF0), (2, 0x3C), (VF, 9)]))
      (fun t => decide (t.reg 1 = 0x30 ∧ t.reg VF = 9)) = true := by decide
/-- T26. -/
theorem test_xor :
    after (step (withRegs (start 0x8123) [(1, 0xF0), (2, 0x3C), (VF, 9)]))
      (fun t => decide (t.reg 1 = 0xCC ∧ t.reg VF = 9)) = true := by decide
/-- T28. -/
theorem test_add_reg_256 :
    after (step (withRegs (start 0x8124) [(1, 0xFF), (2, 1)])) (fun t => decide (t.reg 1 = 0 ∧ t.reg VF = 1)) = true := by decide
/-- T32: the flag is written last. -/
theorem test_add_reg_into_vf :
    after (step (withRegs (start 0x8F14) [(VF, 0x10), (1, 0x20)])) (fun t => decide (t.reg VF = 0 ∧ t.reg 1 = 0x20)) = true := by
  decide
/-- T35. -/
theorem test_sub_equal :
    after (step (withRegs (start 0x8125) [(1, 5), (2, 5), (VF, 9)])) (fun t => decide (t.reg 1 = 0 ∧ t.reg VF = 1)) = true := by
  decide
/-- T36. -/
theorem test_sub_borrows :
    after (step (withRegs (start 0x8125) [(1, 5), (2, 7), (VF, 9)])) (fun t => decide (t.reg 1 = 0xFE ∧ t.reg VF = 0)) = true := by
  decide
/-- T40a. -/
theorem test_subn :
    after (step (withRegs (start 0x8127) [(1, 5), (2, 7), (VF, 9)])) (fun t => decide (t.reg 1 = 2 ∧ t.reg VF = 1)) = true := by
  decide
/-- T40c. -/
theorem test_subn_borrows :
    after (step (withRegs (start 0x8127) [(1, 7), (2, 5), (VF, 9)])) (fun t => decide (t.reg 1 = 0xFE ∧ t.reg VF = 0)) = true := by
  decide
/-- T41. -/
theorem test_shr_vx :
    after (step (withRegs (start 0x8126) [(1, 5), (2, 8)])) (fun t => decide (t.reg 1 = 2 ∧ t.reg 2 = 8 ∧ t.reg VF = 1)) = true := by
  decide
/-- T42. -/
theorem test_shr_vy :
    after (step (withRegs (startWith { bench with shiftSource := .vy } 0x8126) [(1, 5), (2, 8)]))
      (fun t => decide (t.reg 1 = 4 ∧ t.reg 2 = 8 ∧ t.reg VF = 0)) = true := by decide
/-- T44. -/
theorem test_shl_vy :
    after (step (withRegs (startWith { bench with shiftSource := .vy } 0x812E) [(1, 0x81), (2, 0x40)]))
      (fun t => decide (t.reg 1 = 0x80 ∧ t.reg 2 = 0x40 ∧ t.reg VF = 0)) = true := by decide
/-- T47. -/
theorem test_shl_vf : after (step (withRegs (start 0x8F0E) [(VF, 0x81)])) (fun t => decide (t.reg VF = 1)) = true := by decide
/-- T50 to T52, of the meaning's own function of the draw. -/
theorem test_rnd_mask :
    (rndWith 0xA7 1 0x0F State.reset).reg 1 = 7 ∧ (rndWith 0xFF 1 0x00 State.reset).reg 1 = 0 ∧
    (rndWith 0x3C 1 0xFF State.reset).reg 1 = 0x3C := by decide
/-- T51 through a step: mask 0 gives 0 for every draw, the free value among them. -/
theorem test_rnd_mask_zero :
    ∃ t, step (withRegs (start 0xC100) [(1, 9)]) = .next t ∧ t.reg 1 = Config.randomByte 0 &&& 0 ∧ t.draws = 1 :=
  ⟨_, rfl, rfl, rfl⟩

/-! ### Index register and memory -/

/-- T59. -/
theorem test_ld_i : after (step (start 0xAFFF)) (fun t => decide (t.i = 0x0FFF)) = true := by decide
/-- T65. -/
theorem test_add_i_wraps :
    after (step (withRegs { start 0xF11E with i := 0xFFFF } [(1, 2)])) (fun t => decide (t.i = 1 ∧ t.reg VF = 1)) = true := by decide
/-- T64: not cleared. -/
theorem test_add_i_leaves_flag :
    after (step (withRegs { start 0xF11E with i := 0x0200 } [(1, 0x10), (VF, 1)]))
      (fun t => decide (t.i = 0x0210 ∧ t.reg VF = 1)) = true := by decide
/-- T72. -/
theorem test_ld_f : after (step (withRegs (start 0xF129) [(1, 0xFF)])) (fun t => decide (t.i = 0x009B)) = true := by decide
/-- S6. -/
theorem test_ld_b :
    after (step (withRegs { start 0xF133 with i := 0x300 } [(1, 0x9D)]))
      (fun t => decide (t.byteAt 0x300 = 1 ∧ t.byteAt 0x301 = 5 ∧ t.byteAt 0x302 = 7 ∧ t.pc = 0x202)) = true := by decide
/-- T78. -/
theorem test_ld_b_faults :
    faultsWith (step (withRegs { start 0xF133 with i := 0x0FFE } [(1, 1)])) (.memoryOutOfBounds 0x1000) = true := by decide
/-- S5, its first step. -/
theorem test_store_regs :
    after (step (withRegs { start 0xF255 with i := 0x400 } [(0, 0x11), (1, 0x22), (2, 0x33), (3, 0x44)]))
      (fun t => decide (t.byteAt 0x400 = 0x11 ∧ t.byteAt 0x401 = 0x22 ∧ t.byteAt 0x402 = 0x33 ∧ t.byteAt 0x403 = 0 ∧
        t.i = 0x400)) = true := by decide
/-- T80. -/
theorem test_store_regs_faults : faultsWith (step { start 0xFF55 with i := 0x0FF1 }) (.memoryOutOfBounds 0x1000) = true := by
  decide
/-- T82. -/
theorem test_load_regs :
    after (step (withBytes (withRegs { start 0xF265 with i := 0x400 } [(3, 0x77)]) 0x400 [1, 2, 3, 4]))
      (fun t => decide (t.reg 0 = 1 ∧ t.reg 1 = 2 ∧ t.reg 2 = 3 ∧ t.reg 3 = 0x77 ∧ t.i = 0x400)) = true := by decide
/-- T83. -/
theorem test_load_regs_faults : faultsWith (step { start 0xF165 with i := 0x0FFF }) (.memoryOutOfBounds 0x1000) = true := by
  decide

/-! ### Display -/

/-- T90. -/
theorem test_cls :
    after (step (withRegs (withPixel (withPixel (start 0x00E0) 0 0) 31 63) [(VF, 7)]))
      (fun t => litOnly t.fb [] && decide (t.reg VF = 7)) = true := by decide
/-- S2, its first step: glyph B wraps at the right and clips at the bottom. -/
theorem test_drw_wraps_and_clips :
    after (step (withRegs { start 0xD125 with i := 0x087 } [(1, 61), (2, 29), (VF, 9)]))
      (fun t => litOnly t.fb [(29, 61), (29, 62), (29, 63), (30, 61), (30, 0), (31, 61), (31, 62), (31, 63)] &&
        decide (t.reg VF = 0)) = true := by decide
/-- T96: one collision suffices. -/
theorem test_drw_collides :
    after (step (withBytes (withPixel { start 0xD121 with i := 0x300 } 0 0) 0x300 [0xC0]))
      (fun t => litOnly t.fb [(0, 1)] && decide (t.reg VF = 1)) = true := by decide

/-! ### Keypad and timers -/

/-- T110. -/
theorem test_skp :
    after (step { withRegs (start 0xE19E) [(1, 0x1A)] with key := (Vector.replicate 16 false).set 0xA true })
      (fun t => decide (t.pc = 0x204)) = true := by decide
/-- T113. -/
theorem test_sknp : after (step (withRegs (start 0xE1A1) [(1, 5)])) (fun t => decide (t.pc = 0x204)) = true := by decide
/-- T115, its second step: the value before the tick is loaded. -/
theorem test_ld_vx_dt :
    after (step { start 0xF207 with dt := 2 }) (fun t => decide (t.reg 2 = 2 ∧ t.dt = 1)) = true := by decide
/-- T115, its first step: the STEP's tick follows the load. -/
theorem test_ld_dt_vx : after (step (withRegs (start 0xF115) [(1, 3)])) (fun t => decide (t.dt = 2 ∧ t.st = 0)) = true := by decide
/-- T125 with `BATCH = 1`. -/
theorem test_ld_st_vx : after (step (withRegs (start 0xF018) [(0, 3)])) (fun t => decide (t.st = 2 ∧ t.dt = 0)) = true := by decide
/-- S7, row 1: Vx keeps its value, PC has moved on, and a `BATCH` of 15 is cut short. -/
theorem test_ld_vx_k :
    after (step (withRegs (startWith Params.default 0xF30A) [(3, 0x77)]))
      (fun t => decide (t.wait = .awaitingKey 3 ∧ t.pc = 0x202 ∧ t.reg 3 = 0x77 ∧ t.iter = 0)) = true := by decide
/-- T121, T120: a release ends the wait, a press does not. -/
theorem test_set_key :
    answers (perform (.setKey 4 false) { State.reset with wait := .awaitingKey 3 })
      (fun _ t => decide (t.wait = .running ∧ t.reg 3 = 4)) = true ∧
    answers (perform (.setKey 4 true) { State.reset with wait := .awaitingKey 3 })
      (fun _ t => decide (t.wait = .awaitingKey 3 ∧ t.reg 3 = 0 ∧ t.pressed 4 = true)) = true := by decide

/-! ### Whole STEPs and the driver -/

/-- S8 with `BATCH = 2`: one STEP executes both instructions. -/
theorem test_two_instructions_in_a_step :
    answers (perform .step (((State.resetWith { Params.default with batch := 2 })).loadRom [0x60, 0x05, 0x70, 0x03]))
      (fun r t => decide (r = .stepped [] ∧ t.reg 0 = 8 ∧ t.pc = 0x204)) = true := by decide
/-- P6 with `BATCH = 5`: the fifth iteration fetches the word the fourth stored. -/
theorem test_self_modifying_code :
    answers (perform .step ((State.resetWith { Params.default with batch := 5 }).loadRom
        [0xA2, 0x08, 0x60, 0x62, 0x61, 0x2A, 0xF1, 0x55, 0x00, 0x00, 0x12, 0x0A]))
      (fun r t => decide (r = .stepped [] ∧ t.reg 2 = 0x2A ∧ t.pc = 0x20A)) = true := by decide
/-- T130: an unknown word is reported with its address and passed over. -/
theorem test_unknown_word_reported :
    answers (perform .step (start 0x0123)) (fun r t => decide (r = .stepped [⟨0x0123, 0x200⟩] ∧ t.pc = 0x202)) = true := by decide
/-- T5, T154: the fault is latched, answered again, and cleared by RESET. -/
theorem test_fault_latched :
    answers (perform .step (start 0x00EE)) (fun r t =>
      decide (r = .faulted .stackUnderflow) &&
      answers (perform .step t) (fun r' _ => decide (r' = .faulted .stackUnderflow)) &&
      answers (perform (.reset bench) t) (fun _ u => decide (u.fault = none ∧ u.pc = 0x200))) = true := by decide

/-- R12, R241: RND draws, then RET faults in the same STEP; after RESET the next RND takes a free value that neither used. -/
theorem test_draws_counted_through_fault :
    answers (perform .step ((State.resetWith { Params.default with batch := 2 }).loadRom [0xC1, 0xFF, 0x00, 0xEE])) (fun r t =>
      decide (r = .faulted .stackUnderflow ∧ t.draws = 2) &&
      answers (perform (.reset bench) t) (fun _ u => decide (u.draws = 2 ∧ u.fault = none))) = true := by decide

/-! ### Witnesses: a state and operands that meet the hypotheses of each obligation, at the edges of each clause -/

theorem witness_ExactDecodeThenEncodeGivesBack :
    decode .exact 0xD125 = .ok (.drw 1 2 5) ∧ decode .exact 0xFFFF = .error (.unknownInstruction 0xFFFF) := by decide

/-- Each line of R78's table, and for the groups keyed by nn a defined neighbour that no line takes in. -/
theorem witness_UnknownWordsUnderExact :
    [0x00E1, 0x00EF, 0x5121, 0x8128, 0x812F, 0x9AB1, 0xE19F, 0xF166].all
      (fun w => decide (decode .exact w = .error (.unknownInstruction w))) = true ∧
    [0x00E0, 0x5120, 0x8127, 0x812E, 0x9AB0, 0xE1A1, 0xF165].all
      (fun w => decide (decode .exact w ≠ .error (.unknownInstruction w))) = true := by decide

/-- Each of the three places. -/
theorem witness_Table2DiffersInThreePlaces :
    (nibble1 0x0FE0 = 0x0 ∧ fieldX 0x0FE0 ≠ 0 ∧ fieldNN 0x0FE0 = 0xE0) ∧
    (nibble1 0x01EE = 0x0 ∧ fieldX 0x01EE ≠ 0 ∧ fieldNN 0x01EE = 0xEE) ∧
    (nibble1 0x512F = 0x5 ∧ fieldN 0x512F ≠ 0) ∧ (nibble1 0x9AB1 = 0x9 ∧ fieldN 0x9AB1 ≠ 0) := by decide

theorem witness_RetPopsNewestAddress :
    State.reset.sp = 0 ∧ 0 < ({ State.reset with stack := [0x456] } : State).sp := by decide

/-- A full stack, and one with a single free cell. -/
theorem witness_CallPushesReturnAddress :
    ({ State.reset with stack := List.replicate 16 0 } : State).sp = State.reset.cfg.stackDepth ∧
    ({ State.reset with stack := List.replicate 15 0 } : State).sp < State.reset.cfg.stackDepth := by decide

theorem witness_SkipComparesRegisters : (1 : BitVec 4) ≠ 0 ∧ (15 : BitVec 4) ≠ 0 := by decide

theorem witness_CallThenRetComesBack : State.reset.sp < State.reset.cfg.stackDepth := by decide

/-- Both settings, the register at both ends under VX. -/
theorem witness_JumpAddsOffsetRegister :
    (startWith bench 0).cfg.jumpOffsetReg = .v0 ∧
    (startWith { bench with jumpOffsetReg := .vx } 0).cfg.jumpOffsetReg = .vx ∧
    (15 : Reg).val = (0xFFF : Addr12).toNat / 256 ∧ (0 : Reg).val = (0x0FF : Addr12).toNat / 256 := by decide

/-- Both settings; the two hypotheses on the source meet in one register only. -/
theorem witness_ShiftRightSetsLostBit :
    ((startWith bench 0).cfg.shiftSource = .vx → (1 : Reg) = 1) ∧
    ((startWith bench 0).cfg.shiftSource = .vy → (1 : Reg) = 2) ∧
    ((startWith { bench with shiftSource := .vy } 0).cfg.shiftSource = .vx → (2 : Reg) = 1) ∧
    ((startWith { bench with shiftSource := .vy } 0).cfg.shiftSource = .vy → (2 : Reg) = 2) := by decide

theorem witness_ShiftLeftSetsLostBit :
    ((startWith bench 0).cfg.shiftSource = .vx → (15 : Reg) = 15) ∧
    ((startWith bench 0).cfg.shiftSource = .vy → (15 : Reg) = 2) ∧
    ((startWith { bench with shiftSource := .vy } 0).cfg.shiftSource = .vx → (2 : Reg) = 15) ∧
    ((startWith { bench with shiftSource := .vy } 0).cfg.shiftSource = .vy → (2 : Reg) = 2) := by decide

theorem witness_AddImmediateLeavesFlag : (14 : Reg) ≠ VF := by decide

theorem witness_AddRegistersSetsCarry : (0 : Reg) ≠ VF ∧ (14 : Reg) ≠ VF := by decide

theorem witness_SubtractSetsNoBorrow : (0 : Reg) ≠ VF ∧ (14 : Reg) ≠ VF := by decide

/-- A mask bit that is 0, and one that is not. -/
theorem witness_RandomIsMaskedDraw : (0x0F : Byte).getLsbD 4 = false ∧ (0x0F : Byte).getLsbD 3 = true := by decide

/-- The sums 0x1000 and 0x0FFF under ON, and 0x1000 under OFF. -/
theorem witness_AddIndexFlagsOverflow :
    (let s := withRegs { start 0 with i := 0x0FFE } [(1, 2)]
     s.cfg.addIFlag = .on ∧ s.i.toNat + (s.reg 1).toNat > 0x0FFF) ∧
    (let s := withRegs { start 0 with i := 0x0FFE } [(1, 1)]
     ¬ (s.cfg.addIFlag = .on ∧ s.i.toNat + (s.reg 1).toNat > 0x0FFF)) ∧
    (let s := withRegs { startWith { bench with addIFlag := .off } 0 with i := 0x0FFE } [(1, 2)]
     ¬ (s.cfg.addIFlag = .on ∧ s.i.toNat + (s.reg 1).toNat > 0x0FFF)) := by decide

theorem witness_StoreDecimalWritesDigits :
    ({ State.reset with i := 0x0FFD } : State).i.toNat + 2 ≤ 0xFFF ∧
    ({ State.reset with i := 0x0FFE } : State).i.toNat + 2 > 0xFFF := by decide

theorem witness_StoreRegistersWritesRange :
    ({ State.reset with i := 0x0FF0 } : State).i.toNat + (15 : Reg).val ≤ 0xFFF ∧
    ({ State.reset with i := 0x0FFF } : State).i.toNat + (0 : Reg).val ≤ 0xFFF ∧
    ({ State.reset with i := 0x0FF1 } : State).i.toNat + (15 : Reg).val > 0xFFF ∧
    ({ State.reset with i := 0x1000 } : State).i.toNat + (0 : Reg).val > 0xFFF := by decide

theorem witness_LoadRegistersReadsRange :
    ({ State.reset with i := 0x0FF0 } : State).i.toNat + (15 : Reg).val ≤ 0xFFF ∧
    ({ State.reset with i := 0x1000 } : State).i.toNat + (0 : Reg).val > 0xFFF ∧
    (0 : Reg) ≤ 0 ∧ (14 : Reg) ≤ 14 ∧ (14 : Reg) < 15 := by decide

theorem witness_StoreThenLoadRestores :
    ({ State.reset with i := 0x0FF0 } : State).i.toNat + (15 : Reg).val ≤ 0xFFF ∧ (0 : Reg) ≤ 15 ∧ (14 : Reg) < 15 := by decide

theorem witness_StoredWordIsFetched :
    1 ≤ (1 : Reg).val ∧ ({ State.reset with i := 0x0FFE } : State).i.toNat + (1 : Reg).val ≤ 0xFFF := by decide

/-- T99 to T101 and T95: readable up to the first clipped row, unreadable one byte further, readable with `n = 0`
wherever `I` points. -/
theorem witness_DrawXorsSprite_readable :
    State.spriteReadable { State.reset with i := 0x0FFF } 31 1 ∧
    ¬ State.spriteReadable { State.reset with i := 0x0FFF } 31 2 ∧
    State.spriteReadable { State.reset with i := 0x0FFE } 31 15 ∧
    ¬ State.spriteReadable { State.reset with i := 0x0FFE } 0 3 ∧
    State.spriteReadable { State.reset with i := 0xFFFF } 0 0 := by
  unfold State.spriteReadable
  decide

/-- T96 with a collision and T97 without one, at the column and row of registers that hold 64 and 32. -/
theorem witness_DrawXorsSprite_collision :
    (let s := withBytes (withPixel (withRegs { State.reset with i := 0x300 } [(1, 64), (2, 32)]) 0 0) 0x300 [0xC0]
     (0 : Fin 64).val = (s.reg 1).toNat % 64 ∧ (0 : Fin 32).val = (s.reg 2).toNat % 32 ∧
       s.spriteCovers 0 0 1 0 0 = true ∧ s.fb.pixel 0 0 = true) ∧
    ¬ ∃ r c, (withBytes { State.reset with i := 0x300 } 0x300 [0x40]).spriteCovers 0 0 1 r c = true ∧
      State.reset.fb.pixel r c = true := by
  refine ⟨by decide, ?_⟩
  rintro ⟨r, c, -, h⟩
  simp [State.reset, State.resetWith, Framebuffer.pixel] at h

/-- S2: the second draw's hypotheses after the first, with a pixel the first draw lit. -/
theorem witness_DrawTwiceRestores :
    (1 : Reg) ≠ VF ∧ (2 : Reg) ≠ VF ∧
    after (exec (.drw 1 2 5) (withRegs { State.reset with i := 0x087 } [(1, 61), (2, 29)]))
      (fun t => !(State.reset.fb.pixel 29 61) && t.fb.pixel 29 61) = true := by decide

theorem witness_SkipTestsKey :
    (0xA : Nibble).val = ((withRegs State.reset [(1, 0x1A)]).reg 1).toNat % 16 ∧
    (0xF : Nibble).val = ((withRegs State.reset [(1, 0xFF)]).reg 1).toNat % 16 := by decide

/-- Each of the six instructions that can fault does somewhere, and a fetch at 0xFFF while one at 0xFFE does not. -/
theorem witness_OnlySixInstructionsFault :
    faultsWith (exec .ret State.reset) .stackUnderflow = true ∧
    faultsWith (exec (.call 0) { State.reset with stack := List.replicate 16 0 }) .stackOverflow = true ∧
    faultsWith (exec (.drw 0 0 1) { State.reset with i := 0x1000 }) (.memoryOutOfBounds 0x1000) = true ∧
    faultsWith (exec (.ldB 0) { State.reset with i := 0x0FFE }) (.memoryOutOfBounds 0x1000) = true ∧
    faultsWith (exec (.storeRegs 0) { State.reset with i := 0x1000 }) (.memoryOutOfBounds 0x1000) = true ∧
    faultsWith (exec (.loadRegs 0) { State.reset with i := 0x1000 }) (.memoryOutOfBounds 0x1000) = true ∧
    (∃ f, fetch { State.reset with pc := 0x0FFF } = .error f) ∧ (∃ p, fetch { State.reset with pc := 0x0FFE } = .ok p) :=
  ⟨by decide, by decide, by decide, by decide, by decide, by decide, ⟨_, rfl⟩, ⟨_, rfl⟩⟩

/-- A next state in which each part is different. -/
theorem witness_EachPartHasItsWriters :
    after (exec (.ldB 1) (withRegs { State.reset with i := 0x300 } [(1, 7)])) (fun t => decide (t.mem ≠ [])) = true ∧
    after (exec (.ldI 5) State.reset) (fun t => decide (t.i ≠ 0)) = true ∧
    after (exec (.call 5) State.reset) (fun t => decide (t.stack ≠ [])) = true ∧
    after (exec (.drw 0 0 1) { State.reset with i := 0x050 }) (fun t => decide (t.fb ≠ State.reset.fb)) = true ∧
    after (exec (.ldDtVx 1) (withRegs State.reset [(1, 7)])) (fun t => decide (t.dt ≠ 0)) = true ∧
    after (exec (.ldStVx 1) (withRegs State.reset [(1, 7)])) (fun t => decide (t.st ≠ 0)) = true ∧
    after (exec (.ldVxK 1) State.reset) (fun t => decide (t.wait ≠ .running)) = true ∧
    after (exec (.rnd 1 5) State.reset) (fun t => decide (t.draws ≠ 0)) = true := by decide

theorem witness_FlagRegisterHasItsWriters :
    after (exec (.addReg 1 2) (withRegs State.reset [(1, 0xFF), (2, 1)])) (fun t => decide (t.reg VF ≠ 0)) = true ∧
    after (exec (.addI 1) (withRegs { State.reset with i := 0x0FFF } [(1, 1)])) (fun t => decide (t.reg VF ≠ 0)) = true ∧
    after (exec (.ldImm VF 3) State.reset) (fun t => decide (t.reg VF ≠ 0)) = true := by decide

/-- A next state of an instruction of each clause. -/
theorem witness_PcAfterEachInstruction :
    after (exec (.jp 0xFFF) State.reset) (fun _ => true) = true ∧ after (exec (.jpV0 0xFFF) State.reset) (fun _ => true) = true ∧
    after (exec .ret { State.reset with stack := [0x300] }) (fun _ => true) = true ∧
    after (exec (.seImm 0 0) State.reset) (fun t => decide (t.pc ≠ 0x200)) = true ∧
    after (exec (.seImm 0 1) State.reset) (fun t => decide (t.pc = 0x200)) = true ∧
    after (exec .cls State.reset) (fun _ => true) = true := by decide

/-- T19's word at the last address a word fits; an instruction that goes on, and one that faults. -/
theorem witness_StepRunsDecodedInstruction :
    (let s : State := withBytes { State.resetWith bench with pc := 0x0FFE } 0x0FFE [0x30, 0x00]
     s.CanRun ∧ s.pc.toNat ≤ 0xFFE ∧ decode s.cfg.decodeMode (s.wordAt s.pc.toNat) = .ok (.seImm 0 0) ∧
       after (exec (.seImm 0 0) s.fetched) (fun _ => true) = true) ∧
    (let s : State := start 0x00EE
     s.CanRun ∧ s.pc.toNat ≤ 0xFFE ∧ decode s.cfg.decodeMode (s.wordAt s.pc.toNat) = .ok .ret ∧
       faultsWith (exec .ret s.fetched) .stackUnderflow = true) := by
  refine ⟨⟨⟨by decide, by decide, by decide⟩, by decide, by decide, by decide⟩,
    ⟨⟨by decide, by decide, by decide⟩, by decide, by decide, by decide⟩⟩

/-- The first iteration of a STEP, and a later one with a report made before. -/
theorem witness_StepReportsUnknownWord :
    (State.reset.CanRun ∧ State.reset.pc.toNat ≤ 0xFFE ∧
      decode State.reset.cfg.decodeMode (State.reset.wordAt 0x200) = .error (.unknownInstruction 0)) ∧
    (let s : State := { State.reset with pc := 0x0FFE, iter := 1, reports := [⟨0, 0x0FFC⟩], life := .started }
     s.CanRun ∧ s.pc.toNat ≤ 0xFFE ∧ decode s.cfg.decodeMode (s.wordAt s.pc.toNat) = .error (.unknownInstruction 0)) := by
  refine ⟨⟨⟨by decide, by decide, by decide⟩, by decide, by decide⟩, ⟨⟨by decide, by decide, by decide⟩, by decide, by decide⟩⟩

theorem witness_StepFaultsBeyondMemory :
    State.CanRun { State.reset with pc := 0x0FFF } ∧ 0xFFE < ({ State.reset with pc := 0x0FFF } : State).pc.toNat ∧
    State.CanRun { State.reset with pc := 0x1000 } ∧ 0xFFE < ({ State.reset with pc := 0x1000 } : State).pc.toNat ∧
    State.CanRun { State.reset with pc := 0x0FFE } ∧ ({ State.reset with pc := 0x0FFE } : State).pc.toNat ≤ 0xFFE :=
  ⟨⟨by decide, by decide, by decide⟩, by decide, ⟨by decide, by decide, by decide⟩, by decide,
    ⟨by decide, by decide, by decide⟩, by decide⟩

/-- The last iteration but one of a `BATCH` of 15, the last, and one that closed the latch. -/
theorem witness_IterationEndTicks :
    (let t : State := { State.reset with iter := 13 }; t.wait = .running ∧ t.iter + 1 < t.cfg.batch) ∧
    (let t : State := { State.reset with iter := 14 }; t.cfg.batch ≤ t.iter + 1) ∧
    ({ State.reset with wait := .awaitingKey 3 } : State).wait ≠ .running := by decide

theorem witness_StepWhileAwaitingOnlyTicks :
    (let s : State := { State.reset with wait := .awaitingKey 3, dt := 1, st := 0 }
     s.fault = none ∧ s.life ≠ .loadFailed ∧ s.wait = .awaitingKey 3) := by decide

theorem witness_StoppedMachineStaysStopped :
    ({ State.reset with fault := some .stackUnderflow } : State).fault = some .stackUnderflow ∧
    ({ State.reset with life := .loadFailed } : State).fault = none ∧
    ({ State.reset with life := .loadFailed } : State).life = .loadFailed := by decide

/-- `BATCH` at its least and at its default. -/
theorem witness_WholeStepIsRunOfSteps :
    (start 0x1200).iter = 0 ∧ 1 ≤ (start 0x1200).cfg.batch ∧ State.reset.iter = 0 ∧ 1 ≤ State.reset.cfg.batch := by decide

theorem witness_WholeStepKeepsKeypad : after (wholeStep (start 0x6005)) (fun _ => true) = true := by decide

theorem witness_KeyWaitPersists :
    (let s : State := { State.reset with wait := .awaitingKey 15, dt := 255 }
     s.fault = none ∧ s.life ≠ .loadFailed ∧ s.wait = .awaitingKey 15) := by decide

/-- T116. -/
theorem witness_SelfJumpRepeats :
    (start 0x1200).CanRun ∧ (start 0x1200).pc.toNat ≤ 0xFFE ∧ (0x200 : Addr12).toNat = (start 0x1200).pc.toNat ∧
    (start 0x1200).wordAt (start 0x1200).pc.toNat = 0x1#4 ++ (0x200 : Addr12) :=
  ⟨⟨by decide, by decide, by decide⟩, by decide, by decide, by decide⟩

theorem witness_ResetGivesResetValues : bench.wf = true ∧ State.reset.iter = 0 := by decide

/-- T150 to T152: the empty image, an image that fills memory, one byte more, and a late LOAD. -/
theorem witness_LoadPlacesImage :
    State.reset.iter = 0 ∧ State.reset.life = .constructed ∧ ([] : List Byte).length ≤ 3584 ∧
    (List.replicate 3584 (0 : Byte)).length ≤ 3584 ∧ 3584 < (List.replicate 3585 (0 : Byte)).length ∧
    ({ State.reset with life := .started } : State).life ≠ .constructed := by
  rw [List.length_replicate, List.length_replicate]
  decide

theorem witness_OnlyResetAfterRomTooLarge :
    (let s : State := { State.reset with life := .loadFailed }; s.iter = 0 ∧ s.fault = none ∧ s.life = .loadFailed) ∧
    (∀ p, DriverOp.readFb ≠ .reset p) ∧ bench.wf = true :=
  ⟨by decide, by simp, by decide⟩

/-- A release with the latch closed, a press with it closed, a release with it open. -/
theorem witness_SetKeyAndRelease :
    (let s : State := { State.reset with wait := .awaitingKey 3 }
     s.iter = 0 ∧ s.fault = none ∧ s.life ≠ .loadFailed ∧ s.wait = .awaitingKey 3) ∧
    State.reset.iter = 0 ∧ State.reset.fault = none ∧ State.reset.life ≠ .loadFailed ∧ State.reset.wait = .running := by decide

theorem witness_ReadsReturnScreenAndTone : State.reset.iter = 0 ∧ State.reset.life ≠ .loadFailed := by decide

theorem witness_OperationsLandBetweenSteps :
    ({ State.reset with iter := 1 } : State).iter ≠ 0 ∧ answers (perform .readSt State.reset) (fun _ _ => true) = true := by decide

theorem witness_FatalFaultLatches :
    (start 0x00EE).iter = 0 ∧ (start 0x00EE).fault = none ∧ faultsWith (wholeStep (start 0x00EE)) .stackUnderflow = true ∧
    bench.wf = true ∧
    ({ State.reset with fault := some .stackUnderflow } : State).fault = some .stackUnderflow ∧
    answers (perform (.setKey 3 false) { State.reset with fault := some .stackUnderflow }) (fun _ _ => true) = true := by decide

/-- R34: no operation but RESET is a RESET. -/
theorem witness_FatalFaultLatches_operation : ∀ p, DriverOp.setKey 3 false ≠ .reset p := by simp

/-- A STEP of BATCH 2 that draws and then faults: the state after its first iteration. -/
theorem witness_FreeValuesAreNeverReused :
    (let s : State := (State.resetWith { Params.default with batch := 2 }).loadRom [0xC1, 0xFF, 0x00, 0xEE]
     s.iter = 0 ∧ s.fault = none ∧ answers (perform .step s) (fun r _ => decide (r = .faulted .stackUnderflow)) = true ∧
       after (step s) (fun u => decide (u.draws = 1)) = true) ∧
    after (exec (.rnd 1 5) State.reset) (fun _ => true) = true ∧
    (let s : State := { State.reset with fault := some .stackUnderflow }
     s.fault = some .stackUnderflow ∧ answers (perform (.setKey 3 false) s) (fun _ _ => true) = true) := by decide

/-- An image one byte too long. -/
theorem witness_FreeValuesAreNeverReused_load :
    ∃ t, perform (.load (List.replicate 3585 0)) State.reset = .answered .romTooLarge t :=
  ⟨_, by
    have h : Rom.fits (List.replicate 3585 (0 : Byte)) = false := by
      simp only [Rom.fits, List.length_replicate]; decide
    simp only [perform, performLoad, h]; rfl⟩

/-- A state in the midst of a STEP, memory written, one address on the stack, one report made. -/
def midStep : State :=
  { State.reset with
    mem := [(0x300, 1), (0x301, 2)], pc := 0x0FFE, stack := [0x1000], iter := 3, reports := [⟨0, 0x0FFC⟩], life := .started }

theorem midStep_memory : Memory.wf Params.default.fontData [(0x300, 1), (0x301, 2)] = true := by decide

theorem midStep_sound : midStep.Sound where
  params := show Params.default.wf = true by decide
  memory := midStep_memory
  pcBound := show (0x0FFE : Word).toNat ≤ 0x10FE by decide
  stackBound := show 1 ≤ 16 by decide
  stackCells := List.forall_mem_singleton.2 (by decide)
  iterBound := show 3 < 15 by decide
  waitBetween := fun h => absurd rfl h
  reportsBound := show 1 ≤ 3 by decide
  lifeStarted := fun _ => rfl

theorem betweenSteps_sound : State.Sound { midStep with iter := 0 } where
  params := midStep_sound.params
  memory := midStep_sound.memory
  pcBound := midStep_sound.pcBound
  stackBound := midStep_sound.stackBound
  stackCells := midStep_sound.stackCells
  iterBound := show 0 < 15 by decide
  waitBetween := fun _ => rfl
  reportsBound := show 1 ≤ 15 by decide
  lifeStarted := fun h => absurd rfl h

theorem midStep_steps : after (step midStep) (fun _ => true) = true := by decide

theorem witness_StepKeepsInvariant : midStep.Inv ∧ after (step midStep) (fun _ => true) = true :=
  ⟨fun _ _ => midStep_sound, midStep_steps⟩

theorem witness_OperationsKeepInvariant :
    State.Inv { midStep with iter := 0 } ∧
    answers (perform (.setKey 3 false) { midStep with iter := 0 }) (fun _ _ => true) = true :=
  ⟨fun _ _ => betweenSteps_sound, by decide⟩

theorem witness_FetchWordIsFetched :
    (65535 : Nat) < 65536 ∧ State.CanRun { State.reset with pc := 0x0FFE } ∧
    ({ State.reset with pc := 0x0FFE } : State).pc.toNat ≤ 0xFFE :=
  ⟨by decide, ⟨by decide, by decide, by decide⟩, by decide⟩

end Sys2Proof.Tests
end

/-! PROOFS. The count of free values `draws` (R12, R131, R241, log 3): what an instruction, an iteration, a step and an
operation of the driver do to it, and how a run of steps walks through the batch of R201. -/

namespace Sys2Proof.Machine

/-! ### Instructions and iterations -/

/-- An RND that goes on has consumed one draw (R131). -/
theorem exec_rnd_draws {x : Reg} {nn : Byte} {s t : State} (h : exec (.rnd x nn) s = .next t) :
    t.draws = s.draws + 1 := by
  cases h; rfl

/-- No other instruction draws. -/
theorem exec_draws_of_ne_rnd {i : Instr} {s t : State} (hne : ∀ x nn, i ≠ .rnd x nn) (h : exec i s = .next t) :
    t.draws = s.draws := by
  cases i
  case rnd x nn => exact absurd rfl (hne x nn)
  case drw x y n => obtain ⟨fb, b, rfl⟩ := execDrw_next h; simp
  case loadRegs x => obtain ⟨v, rfl⟩ := execLoadRegs_next h; simp
  case ldB x => obtain ⟨⟨m, rfl⟩, -⟩ := finish_storeBytes_next h; simp
  case storeRegs x => obtain ⟨⟨m, rfl⟩, -⟩ := finish_storeBytes_next h; simp
  case ret => obtain ⟨a, rest, -, rfl⟩ := execRet_next h; simp
  case call nnn => obtain ⟨-, rfl⟩ := execCall_next h; simp
  case addI x => simp only [exec, execAddI] at h; cases h; split <;> simp
  all_goals (cases h; simp)

theorem exec_draws_le {i : Instr} {s t : State} (h : exec i s = .next t) : s.draws ≤ t.draws := by
  by_cases hr : ∃ x nn, i = .rnd x nn
  · obtain ⟨x, nn, rfl⟩ := hr
    exact (Nat.le_succ _).trans_eq (exec_rnd_draws h).symm
  · exact (exec_draws_of_ne_rnd (fun x nn e => hr ⟨x, nn, e⟩) h).ge

theorem iteration_draws_le {s t : State} (h : iteration s = .next t) : s.draws ≤ t.draws := by
  rcases iteration_next_cases h with ⟨i, hi⟩ | ⟨w, rfl⟩
  · simpa using exec_draws_le hi
  · simp

theorem waitingStep_draws (s : State) : s.waitingStep.draws = s.draws := rfl

theorem fetched_draws (s : State) : s.fetched.draws = s.draws := by simp [State.fetched]

theorem step_draws_le {s t : State} (h : step s = .next t) : s.draws ≤ t.draws := by
  obtain ⟨-, -, ⟨r, -, rfl⟩ | ⟨-, -, ⟨i, u, -, hu, rfl⟩ | ⟨e, -, rfl⟩⟩⟩ := step_next_cases h
  · exact (waitingStep_draws s).ge
  · simpa [fetched_draws] using exec_draws_le hu
  · simp [fetched_draws]

/-! ### The batch (R201) -/

theorem batchReach_draws_le : ∀ (left : Nat) (s : State), s.draws ≤ (batchReach left s).draws
  | 0, _ => Nat.le_refl _
  | left + 1, s => by
    simp only [batchReach]
    cases hi : iteration s with
    | fault f => exact Nat.le_refl _
    | refused r => exact Nat.le_refl _
    | next v =>
      have hv : s.draws ≤ v.draws := iteration_draws_le hi
      by_cases hw : v.wait = .running
      · simpa only [hw, if_true] using hv.trans (batchReach_draws_le left v)
      · simpa only [hw, if_false] using hv

/-- A batch that faults has an iteration left: it faults in that one, or goes on after it and faults later. -/
theorem batchFrom_fault_cases {left : Nat} {t : State} {f : Fault} (h : batchFrom left t = .fault f) :
    ∃ n, left = n + 1 ∧
      ((iteration t = .fault f ∧ batchReach left t = t) ∨
       ∃ v, iteration t = .next v ∧ v.wait = .running ∧ batchFrom n v = .fault f ∧ batchReach left t = batchReach n v) := by
  cases left with
  | zero => cases h
  | succ n =>
    refine ⟨n, rfl, ?_⟩
    simp only [batchFrom] at h
    simp only [batchReach]
    cases hi : iteration t with
    | fault g => rw [hi] at h; cases h; exact .inl ⟨rfl, rfl⟩
    | refused r => rw [hi] at h; cases h
    | next v =>
      rw [hi] at h
      by_cases hw : v.wait = .running
      · exact .inr ⟨v, rfl, hw, by simpa only [hw, if_true] using h, by simp only [hw, if_true]⟩
      · simp only [hw, if_false] at h; cases h

/-! ### A run of steps through the batch (R201, R202, log 1) -/

/-- The run of steps stands at `s` where the batch stands at `t` with `left` iterations to go: they differ in the count of
iterations, and in what the first step does to begin the STEP. -/
structure AtBatchPoint (left : Nat) (s t : State) : Prop where
  canRun : s.CanRun
  begun : s.beginIteration = { t with iter := s.iter }
  room : s.iter + left ≤ s.cfg.batch

theorem atBatchPoint_beginStep {s : State} (hs : s.CanRun) (h0 : s.iter = 0) :
    AtBatchPoint s.cfg.batch s s.beginStep where
  canRun := hs
  begun := by rw [State.beginIteration, if_pos h0]; rfl
  room := by omega

namespace AtBatchPoint

variable {left : Nat} {s t : State}

theorem draws_eq (h : AtBatchPoint left s t) : s.draws = t.draws := by
  simpa using congrArg State.draws h.begun

theorem cfg_eq (h : AtBatchPoint left s t) : s.cfg = t.cfg := by
  simpa using congrArg State.cfg h.begun

/-- An iteration of the run is the batch's iteration, with the run's own count. -/
theorem iteration_eq (h : AtBatchPoint left s t) : iteration s.beginIteration = Result.withIter s.iter (iteration t) := by
  rw [h.begun, iteration_withIter]

theorem step_fault {f : Fault} (h : AtBatchPoint left s t) (hi : iteration t = .fault f) : step s = .fault f := by
  rw [step_of_canRun s h.canRun, h.iteration_eq, hi]; rfl

/-- Where the batch goes on after an iteration and has another one left, so does the run of steps. -/
theorem step_next {v : State} (h : AtBatchPoint (left + 2) s t) (hi : iteration t = .next v) (hw : v.wait = .running) :
    step s = .next { v with iter := s.iter + 1 } ∧ AtBatchPoint (left + 1) { v with iter := s.iter + 1 } v := by
  obtain ⟨-, -, hcfg, -, -⟩ := iteration_keeps_bookkeeping hi
  have hroom : s.iter + (left + 2) ≤ v.cfg.batch := by rw [hcfg, ← h.cfg_eq]; exact h.room
  have hend : ({ v with iter := s.iter } : State).endIteration = { v with iter := s.iter + 1 } :=
    endIteration_goesOn { v with iter := s.iter } hw (show s.iter + 1 < v.cfg.batch by omega)
  constructor
  · rw [step_of_canRun s h.canRun, h.iteration_eq, hi]
    exact congrArg Host.Outcome.next hend
  · obtain ⟨hfault, hlife, -⟩ := h.canRun
    have hrun : iteration s.beginIteration = .next { v with iter := s.iter } := by rw [h.iteration_eq, hi]; rfl
    obtain ⟨kfault, klife, -⟩ := iteration_keeps_bookkeeping hrun
    have hbegun : s.beginIteration.life ≠ .loadFailed := by
      rw [beginIteration_life]; split <;> simp [hlife]
    exact {
      canRun := ⟨by simpa [hfault] using kfault, fun e => hbegun (klife.symm.trans e), hw⟩
      begun := if_neg (Nat.succ_ne_zero s.iter)
      room := show s.iter + 1 + (left + 1) ≤ v.cfg.batch by omega }

end AtBatchPoint

/-- A run of steps inside a STEP that faults has drawn no more than the batch had when it reached the faulting iteration. -/
theorem run_draws_le_batchReach {f : Fault} {u : State} : ∀ (k : Nat) {left : Nat} {s t : State}, AtBatchPoint left s t →
    batchFrom left t = .fault f → Host.Core.run core k s = .next u → u.draws ≤ (batchReach left t).draws
  | 0, left, s, t, hp, _, hu => by
    cases hu
    exact hp.draws_eq.trans_le (batchReach_draws_le left t)
  | k + 1, left, s, t, hp, hb, hu => by
    obtain ⟨n, rfl, ⟨hi, -⟩ | ⟨v, hi, hw, hv, hreach⟩⟩ := batchFrom_fault_cases hb
    · rw [run_succ_fault k s f (hp.step_fault hi)] at hu
      cases hu
    · obtain ⟨m, rfl, -⟩ := batchFrom_fault_cases hv
      obtain ⟨hstep, hp'⟩ := hp.step_next hi hw
      rw [run_succ_next k s _ hstep] at hu
      exact hreach ▸ run_draws_le_batchReach k hp' hv hu

/-! ### The driver's operations (R200) -/

/-- What a guard lets through is what the operation behind it answers. -/
theorem answered_of_guarded {c : Prop} [Decidable c] {e : Refusal} {o : OpOutcome} {r : Reply} {t : State}
    (h : (if c then .refused e else o) = .answered r t) : o = .answered r t := by
  by_cases hc : c
  · rw [if_pos hc] at h; cases h
  · rwa [if_neg hc] at h

/-- A STEP that a fault ends began on a machine that can run, and its batch faulted (R205, R206, R210). -/
theorem wholeStep_fault {s : State} {f : Fault} (hf : s.fault = none) (h : wholeStep s = .fault f) :
    s.CanRun ∧ batchFrom s.cfg.batch s.beginStep = .fault f := by
  simp only [wholeStep, hf] at h
  by_cases hl : s.life = .loadFailed
  · rw [if_pos hl] at h; cases h
  · rw [if_neg hl] at h
    cases hw : s.wait with
    | awaitingKey r => rw [hw] at h; cases h
    | running => rw [hw] at h; exact ⟨⟨hf, hl, hw⟩, h⟩

theorem wholeStep_draws_le {s t : State} (h : wholeStep s = .next t) : s.draws ≤ t.draws := by
  simp only [wholeStep] at h
  split at h
  · cases h
  · split at h
    · cases h
    · split at h
      · cases h; simp
      · rw [batchFrom_next h, tick_draws]
        exact batchReach_draws_le s.cfg.batch s.beginStep

theorem loadRom_draws (s : State) (bytes : List Byte) : (s.loadRom bytes).draws = s.draws := by
  obtain ⟨⟨m, hm⟩, -⟩ := setBytesFrom_spec bytes s Config.loadBase
  exact (congrArg State.draws hm :)

theorem settle_draws_le (s : State) : s.draws ≤ s.settle.draws := by
  cases h : s.fault with
  | none => rw [settle_running s h]
  | some f => rw [settle_faulted s f h, latchFault_draws]; exact Nat.le_succ _

theorem performLoad_draws_le {bytes : List Byte} {s t : State} {r : Reply} (h : performLoad bytes s = .answered r t) :
    s.draws ≤ t.draws := by
  have h := answered_of_guarded h
  split at h <;> cases h
  · exact (loadRom_draws s bytes).ge
  · exact Nat.le_succ _

/-- LOAD answers RomTooLarge by rejecting the image, and so takes a free value (R210, log 18). -/
theorem performLoad_romTooLarge {bytes : List Byte} {s t : State} (h : performLoad bytes s = .answered .romTooLarge t) :
    t = s.loadRejected bytes := by
  have h := answered_of_guarded h
  split at h <;> cases h
  rfl

/-- What a STEP can answer: a latched fault again, a whole STEP, or the fault of its batch, latched where the faulting
iteration began (R201, R206, R241). -/
theorem performStep_cases {s t : State} {r : Reply} (h : performStep s = .answered r t) :
    (∃ f, s.fault = some f ∧ t = s) ∨ (wholeStep s = .next t ∧ r = .stepped t.reports) ∨
    (∃ f, s.fault = none ∧ wholeStep s = .fault f ∧ t = (batchReach s.cfg.batch s.beginStep).latchFault f) := by
  simp only [performStep] at h
  cases hf : s.fault with
  | some f => rw [hf] at h; cases h; exact .inl ⟨f, rfl, rfl⟩
  | none =>
    rw [hf] at h
    cases hs : wholeStep s with
    | next u => simp only [hs] at h; cases h; exact .inr (.inl ⟨rfl, rfl⟩)
    | fault f => simp only [hs] at h; cases h; exact .inr (.inr ⟨f, rfl, rfl, rfl⟩)
    | refused e => simp only [hs] at h; cases h

theorem performStep_draws_le {s t : State} {r : Reply} (h : performStep s = .answered r t) : s.draws ≤ t.draws := by
  rcases performStep_cases h with ⟨f, -, rfl⟩ | ⟨hs, -⟩ | ⟨f, -, -, rfl⟩
  · exact Nat.le_refl _
  · exact wholeStep_draws_le hs
  · rw [latchFault_draws]
    exact (batchReach_draws_le s.cfg.batch s.beginStep).trans (Nat.le_succ _)

/-- After a STEP that faults the count is above that of every state the STEP went through (R206, R241). -/
theorem performStep_faulted_draws_lt {s t u : State} {f : Fault} {k : Nat} (h0 : s.iter = 0) (hf : s.fault = none)
    (h : performStep s = .answered (.faulted f) t) (hu : Host.Core.run core k s = .next u) : u.draws < t.draws := by
  rcases performStep_cases h with ⟨g, hg, -⟩ | ⟨-, hr⟩ | ⟨g, -, hs, rfl⟩
  · rw [hf] at hg; cases hg
  · cases hr
  · obtain ⟨hcan, hb⟩ := wholeStep_fault hf hs
    exact Nat.lt_succ_of_le (run_draws_le_batchReach k (atBatchPoint_beginStep hcan h0) hb hu)

/-- SET_KEY that is answered reports the key and leaves a faulted machine unspecified anew (R208, log 22). -/
theorem perform_setKey_answered {k : Nibble} {p : Bool} {s t : State} {r : Reply}
    (h : perform (.setKey k p) s = .answered r t) : t = (s.setKey k p).settle := by
  have h : performSetKey k p s = .answered r t := answered_of_guarded (answered_of_guarded h)
  cases h; rfl

theorem perform_draws_le {op : DriverOp} {s t : State} {r : Reply} (h : perform op s = .answered r t) :
    s.draws ≤ t.draws := by
  cases op with
  | load bytes => exact performLoad_draws_le (answered_of_guarded h)
  | step => exact performStep_draws_le (answered_of_guarded h)
  | setKey k p =>
    rw [perform_setKey_answered h]
    simpa using settle_draws_le (s.setKey k p)
  | reset p =>
    have h : performReset p s = .answered r t := answered_of_guarded h
    simp only [performReset] at h
    split at h <;> cases h
    exact Nat.le_refl _
  | readFb =>
    have h : OpOutcome.answered (.framebuffer s.fb) s = .answered r t := answered_of_guarded (answered_of_guarded h)
    cases h; exact Nat.le_refl _
  | readSt =>
    have h : OpOutcome.answered (.soundTimer s.st) s = .answered r t := answered_of_guarded (answered_of_guarded h)
    cases h; exact Nat.le_refl _

theorem perform_setKey_faulted_draws {k : Nibble} {p : Bool} {s t : State} {r : Reply} {f : Fault} (hf : s.fault = some f)
    (h : perform (.setKey k p) s = .answered r t) : t.draws = s.draws + 1 := by
  rw [perform_setKey_answered h, settle_faulted (s.setKey k p) f (by simpa using hf), latchFault_draws, setKey_draws]

/-- Settles O60: the count never goes back in an instruction, a step or an operation, goes on where a free value is taken,
and a run of steps through a STEP that faults stays within what its batch drew. -/
theorem freeValuesAreNeverReused : Obligations.FreeValuesAreNeverReused := by
  unfold Obligations.FreeValuesAreNeverReused
  refine ⟨fun i s t => exec_draws_le, fun x nn s t h => ?rnd, fun s t => step_draws_le, fun op s t r => perform_draws_le,
    fun bytes s t h => ?load, fun k p s t r f hf h => ?setKey, fun s t u f k h0 hf h hu => ?step⟩
  case rnd => exact Nat.lt_of_succ_le (exec_rnd_draws h).ge
  case load =>
    have ht : t = s.loadRejected bytes := performLoad_romTooLarge (answered_of_guarded h)
    rw [ht, loadRejected_draws]
    exact Nat.lt_succ_self _
  case setKey => exact Nat.lt_of_succ_le (perform_setKey_faulted_draws hf h).ge
  case step => exact performStep_faulted_draws_lt h0 hf (answered_of_guarded h) hu

end Sys2Proof.Machine

/-! PROOFS. What instructions do to the state part by part (R22, R26, R37), what RESET gives (R39), and the invariant
(R27, R28, R51, R201, R203, R207). -/

namespace Sys2Proof.Machine

/-! ### The parts an instruction may change (R37) -/

/-- The elements of R20 an instruction may change. -/
def writtenParts : Instr → List Part
  | .cls => [.fb]
  | .ret | .call _ => [.stack, .pc]
  | .jp _ | .jpV0 _ => [.pc]
  | .seImm _ _ | .sneImm _ _ | .seReg _ _ | .sneReg _ _ | .skp _ | .sknp _ => [.pc]
  | .ldImm _ _ | .addImm _ _ | .ldReg _ _ | .orReg _ _ | .andReg _ _ | .xorReg _ _ => [.v]
  | .addReg _ _ | .sub _ _ | .subn _ _ | .shr _ _ | .shl _ _ => [.v]
  | .rnd _ _ | .ldVxDt _ | .loadRegs _ => [.v]
  | .ldI _ | .ldF _ => [.i]
  | .addI _ => [.i, .v]
  | .drw _ _ _ => [.v, .fb]
  | .ldVxK _ => [.wait]
  | .ldDtVx _ => [.dt]
  | .ldStVx _ => [.st]
  | .ldB _ | .storeRegs _ => [.mem]

/-- Of the elements that instructions write, only the listed ones differ; memory, registers and pixels as wholes. -/
structure ChangesOnly (ps : List Part) (s t : State) : Prop where
  mem : t.mem ≠ s.mem → .mem ∈ ps
  v : t.v ≠ s.v → .v ∈ ps
  i : t.i ≠ s.i → .i ∈ ps
  pc : t.pc ≠ s.pc → .pc ∈ ps
  stack : t.stack ≠ s.stack → .stack ∈ ps
  dt : t.dt ≠ s.dt → .dt ∈ ps
  st : t.st ≠ s.st → .st ∈ ps
  fb : t.fb ≠ s.fb → .fb ∈ ps
  wait : t.wait ≠ s.wait → .wait ∈ ps

/-- An instruction changes no element but those its row of the table names. -/
theorem exec_changesOnly {i : Instr} {s t : State} (h : exec i s = .next t) : ChangesOnly (writtenParts i) s t := by
  cases i
  case drw x y n => obtain ⟨fb, b, rfl⟩ := execDrw_next h; constructor <;> simp [writtenParts]
  case loadRegs x => obtain ⟨v, rfl⟩ := execLoadRegs_next h; constructor <;> simp [writtenParts]
  case ldB x | storeRegs x => obtain ⟨⟨m, rfl⟩, -⟩ := finish_storeBytes_next h; constructor <;> simp [writtenParts]
  case ret => obtain ⟨a, rest, -, rfl⟩ := execRet_next h; constructor <;> simp [writtenParts]
  case call nnn => obtain ⟨-, rfl⟩ := execCall_next h; constructor <;> simp [writtenParts]
  case addI x => cases h; split <;> constructor <;> simp [writtenParts]
  case rnd x nn => cases h; constructor <;> simp [writtenParts, rndWith]
  all_goals (cases h; constructor <;> simp [writtenParts])

/-- The table read by its columns, as R37 states it. -/
theorem writers_of_parts (i : Instr) :
    (.mem ∈ writtenParts i → (∃ x, i = .ldB x) ∨ (∃ x, i = .storeRegs x)) ∧
    (.i ∈ writtenParts i → (∃ nnn, i = .ldI nnn) ∨ (∃ x, i = .addI x) ∨ (∃ x, i = .ldF x)) ∧
    (.stack ∈ writtenParts i → i = .ret ∨ (∃ nnn, i = .call nnn)) ∧
    (.fb ∈ writtenParts i → i = .cls ∨ (∃ x y n, i = .drw x y n)) ∧
    (.dt ∈ writtenParts i → ∃ x, i = .ldDtVx x) ∧ (.st ∈ writtenParts i → ∃ x, i = .ldStVx x) ∧
    (.wait ∈ writtenParts i → ∃ x, i = .ldVxK x) := by
  cases i <;> simp [writtenParts]

/-- Only RND draws (R131). -/
theorem exec_rnd_of_draws_ne {i : Instr} {s t : State} (h : exec i s = .next t) (hne : t.draws ≠ s.draws) :
    ∃ x nn, i = .rnd x nn := by
  by_contra hr
  exact hne (exec_draws_of_ne_rnd (fun x nn e => hr ⟨x, nn, e⟩) h)

/-- Settles O36: what an instruction changes is in its row of the table, read by columns; it draws if it is RND, and leaves
the bookkeeping alone. -/
theorem eachPartHasItsWriters : Obligations.EachPartHasItsWriters := by
  unfold Obligations.EachPartHasItsWriters
  intro i s t h
  have hc := exec_changesOnly h
  obtain ⟨hmem, hi, hstack, hfb, hdt, hst, hwait⟩ := writers_of_parts i
  obtain ⟨hfault, hlife, hcfg, hiter, hreports, hkey⟩ := exec_keeps_bookkeeping h
  exact ⟨hmem ∘ hc.mem, hi ∘ hc.i, hstack ∘ hc.stack, hfb ∘ hc.fb, hdt ∘ hc.dt, hst ∘ hc.st, hwait ∘ hc.wait,
    exec_rnd_of_draws_ne h, hkey, hfault, hcfg, hiter, hreports, hlife⟩

/-! ### The flag register (R22) -/

/-- A register that a register load changes is its destination. -/
theorem eq_of_reg_setReg_ne {s : State} {x r : Reg} {b : Byte} (h : (s.setReg x b).reg r ≠ s.reg r) : x = r :=
  (not_imp_comm.1 (reg_setReg_ne s x r b) h).symm

/-- LD Vx,[I] that goes on keeps every register above Vx (R155). -/
theorem exec_loadRegs_reg_above {x r : Reg} {s t : State} (h : exec (.loadRegs x) s = .next t) (hr : x < r) :
    t.reg r = s.reg r := by
  by_cases hin : s.i.toNat + (x.val + 1) ≤ Config.memSize
  · simp only [exec, execLoadRegs, dataAddr_eq, Nat.add_zero, fetchBytes_ok s _ _ hin] at h
    cases h
    have hx : x.val < r.val := hr
    rw [reg_setRegsFrom _ _ _ (by simp), dif_neg (by simp; omega)]
  · simp only [exec, execLoadRegs, dataAddr_eq, Nat.add_zero,
      fetchBytes_error s _ _ (Nat.succ_ne_zero _) (Nat.lt_of_not_le hin)] at h
    cases h

/-- ADD I,Vx writes VF under `ADD_I_FLAG = ON` only (R151, D7). -/
theorem exec_addI_on_of_reg_ne {x r : Reg} {s t : State} (h : exec (.addI x) s = .next t) (hne : t.reg r ≠ s.reg r) :
    s.cfg.addIFlag = .on := by
  by_contra hoff
  have hno : setsIndexFlag s x = false := by simp [setsIndexFlag, hoff]
  simp only [exec, execAddI, hno] at h
  cases h
  exact hne rfl

/-- Settles O37: the instruction has V in its row of the table; the flag writers are listed, and of the others VF can only
be the destination. -/
theorem flagRegisterHasItsWriters : Obligations.FlagRegisterHasItsWriters := by
  unfold Obligations.FlagRegisterHasItsWriters
  intro i s t h hne
  have hv : .v ∈ writtenParts i := (exec_changesOnly h).v fun e => hne (reg_congr e VF)
  cases i
  case addReg x y | sub x y | subn x y | shr x y | shl x y => exact .inl ⟨x, y, by simp⟩
  case drw x y n => exact .inr (.inl ⟨x, y, n, rfl⟩)
  case addI x => exact .inr (.inr (.inl ⟨exec_addI_on_of_reg_ne h hne, x, rfl⟩))
  case loadRegs x =>
    have hx : ¬ x < VF := fun hlt => hne (exec_loadRegs_reg_above h hlt)
    obtain rfl : x = VF := le_antisymm (Fin.le_last x) (not_lt.1 hx)
    simp
  case ldImm x nn | addImm x nn | rnd x nn | ldReg x y | orReg x y | andReg x y | xorReg x y | ldVxDt x =>
    cases h
    obtain rfl : x = VF := eq_of_reg_setReg_ne hne
    simp
  all_goals simp [writtenParts] at hv

/-! ### PC after an instruction (R26, R107) -/

theorem jumpOffsetRegister_v0 {s : State} (h : s.cfg.jumpOffsetReg = .v0) (nnn : Addr12) :
    jumpOffsetRegister s nnn = 0 := by
  simp [jumpOffsetRegister, h]

/-- Under `JUMP_OFFSET_REG = VX` the register is the number in the high nibble of nnn (R108). -/
theorem jumpOffsetRegister_vx {s : State} (h : s.cfg.jumpOffsetReg = .vx) {nnn : Addr12} {x : Reg}
    (hx : x.val = nnn.toNat / 256) : jumpOffsetRegister s nnn = x := by
  have hlt : nnn.toNat / 256 < 16 := hx ▸ x.isLt
  simp [jumpOffsetRegister, h, Fin.ext_iff, Nat.shiftRight_eq_div_pow, hx, Nat.mod_eq_of_lt hlt]

theorem lowNibble_eq {s : State} {x : Reg} {k : Nibble} (hk : k.val = (s.reg x).toNat % 16) : lowNibble s x = k :=
  Fin.ext hk.symm

/-- An instruction whose row of the table leaves PC out keeps it. -/
theorem exec_keeps_pc {i : Instr} {s t : State} (h : exec i s = .next t) (hi : .pc ∉ writtenParts i) : t.pc = s.pc :=
  not_imp_comm.1 (exec_changesOnly h).pc hi

/-- Settles O38: the jumps, RET and the skips by the law of their target, every other instruction by its row of the
table. -/
theorem pcAfterEachInstruction : Obligations.PcAfterEachInstruction := by
  unfold Obligations.PcAfterEachInstruction
  intro i s t h
  cases i
  case jp nnn => cases h; exact toNat_immAddr nnn
  case call nnn => obtain ⟨-, rfl⟩ := execCall_next h; exact toNat_immAddr nnn
  case jpV0 nnn =>
    cases h
    constructor
    · intro hv
      rw [setPc_pc, toNat_jumpTarget, jumpOffsetRegister_v0 hv]
    · intro hv x hx
      rw [setPc_pc, toNat_jumpTarget, jumpOffsetRegister_vx hv hx]
  case ret => obtain ⟨a, rest, hs, rfl⟩ := execRet_next h; exact stackCell_top s a rest hs
  case seImm | sneImm | seReg | sneReg => cases h; simp
  case skp x | sknp x =>
    intro k hk
    cases h
    simp [lowNibble_eq hk]
  all_goals exact exec_keeps_pc h (by simp [writtenParts])

/-! ### RESET (R39, R260, R261) -/

/-- Settles O49: the answer is the state of R39 with the count of draws kept; memory lists no cell and so reads as RESET's
content. -/
theorem resetGivesResetValues : Obligations.ResetGivesResetValues := by
  unfold Obligations.ResetGivesResetValues
  refine ⟨rfl, fun p u hp h0 => ⟨{ State.resetWith p with draws := u.draws }, ?answer, ?outside, ?font, ?regs, rfl, rfl, rfl,
    rfl, rfl, ?pixels, ?keys, rfl, rfl, rfl⟩⟩
  case answer => simp [perform, performReset, h0, hp]
  case outside => exact fun a ha => blank_outside_font p.fontData a ha
  case font => exact fun k hk => blank_inside_font p.fontData k (fontData_length p hp ▸ hk) hk
  case regs => intro r; simp [State.reg, State.resetWith]
  case pixels => exact pixel_clear
  case keys => intro k; simp [State.pressed, State.resetWith]

theorem batch_pos_of_wf {p : Config.Params} (hp : p.wf = true) : 0 < p.batch := by
  simp only [Config.Params.wf, Config.Params.batchOk, Bool.and_eq_true, decide_eq_true_eq] at hp
  obtain ⟨⟨-, hb⟩, -⟩ := hp
  exact hb

/-- The state after RESET with parameters in range meets every clause of the invariant. -/
theorem resetWith_sound {p : Config.Params} (hp : p.wf = true) : (State.resetWith p).Sound where
  params := hp
  memory := Memory.wf_nil p.fontData
  pcBound := show (0x0200 : Word).toNat ≤ 0x10FE by decide
  stackBound := Nat.zero_le _
  stackCells := by simp [State.resetWith]
  iterBound := batch_pos_of_wf hp
  waitBetween := fun _ => rfl
  reportsBound := Nat.zero_le _
  lifeStarted := fun h => absurd rfl h

theorem defaultParams_wf : Config.Params.default.wf = true := by decide

/-- Settles O56: every clause holds of the state after RESET with parameters in range, the default ones among them. -/
theorem resetIsSound : Obligations.ResetIsSound := by
  unfold Obligations.ResetIsSound
  exact ⟨defaultParams_wf, fun _ _ => resetWith_sound defaultParams_wf, resetWith_sound defaultParams_wf,
    fun p hp _ _ => resetWith_sound hp⟩

/-! ### What an instruction does to PC, stack and memory (R26, R28, R51) -/

theorem mem_stack_of_stackCell {s : State} {k : Nat} {a : Word} (h : s.stackCell k = some a) : a ∈ s.stack :=
  List.mem_reverse.1 (List.mem_of_getElem? h)

theorem toNat_jumpTarget_le (s : State) (nnn : Addr12) : (jumpTarget s nnn).toNat ≤ 0x10FE := by
  have hn : nnn.toNat < 4096 := nnn.isLt
  have hr : (s.reg (jumpOffsetRegister s nnn)).toNat < 256 := (s.reg _).isLt
  rw [toNat_jumpTarget]
  omega

/-- What an instruction that goes on can do to PC: keep it, skip, return, or jump to a target of at most 0x10FE (R26, R27). -/
theorem exec_pc_cases {i : Instr} {s t : State} (h : exec i s = .next t) :
    (t.pc = s.pc ∨ t.pc = s.pc + 2) ∨ t.pc ∈ s.stack ∨ t.pc.toNat ≤ 0x10FE := by
  have hpc := pcAfterEachInstruction i s t h
  cases i
  case jp nnn | call nnn =>
    have hn : nnn.toNat < 4096 := nnn.isLt
    exact .inr (.inr (hpc.trans_le (by omega)))
  case jpV0 nnn => cases h; exact .inr (.inr (toNat_jumpTarget_le s nnn))
  case ret => exact .inr (.inl (mem_stack_of_stackCell hpc))
  case seImm | sneImm | seReg | sneReg => exact .inl ((ite_eq_or_eq _ _ _).symm.imp hpc.trans hpc.trans)
  case skp x | sknp x =>
    have hskip := hpc (lowNibble s x) rfl
    exact .inl ((ite_eq_or_eq _ _ _).symm.imp hskip.trans hskip.trans)
  all_goals exact .inl (.inl hpc)

/-- R27: PC after an instruction, where the fetch left it at most 0x1000. -/
theorem exec_pc_le {i : Instr} {s t : State} (h : exec i s = .next t) (hpc : s.pc.toNat ≤ 0x1000)
    (hcells : ∀ a ∈ s.stack, a.toNat ≤ 0x1000) : t.pc.toNat ≤ 0x10FE := by
  rcases exec_pc_cases h with (hkeep | hskip) | hret | hjump
  · rw [hkeep]; omega
  · rw [hskip]; bv_omega
  · have hle := hcells _ hret; omega
  · exact hjump

/-- What an instruction that goes on can do to the stack: keep it, pop its newest cell, or push PC where there is room. -/
theorem exec_stack_cases {i : Instr} {s t : State} (h : exec i s = .next t) :
    t.stack = s.stack ∨ (∃ a, s.stack = a :: t.stack) ∨ (s.sp < s.cfg.stackDepth ∧ t.stack = s.pc :: s.stack) := by
  by_cases hkeep : t.stack = s.stack
  · exact .inl hkeep
  · obtain ⟨-, -, hwriters, -⟩ := eachPartHasItsWriters i s t h
    rcases hwriters hkeep with rfl | ⟨nnn, rfl⟩
    · obtain ⟨a, rest, hs, rfl⟩ := execRet_next h
      exact .inr (.inl ⟨a, hs⟩)
    · obtain ⟨hroom, rfl⟩ := execCall_next h
      exact .inr (.inr ⟨hroom, rfl⟩)

/-- R28: the stack stays within `STACK_DEPTH`. -/
theorem exec_sp_le {i : Instr} {s t : State} (h : exec i s = .next t) (hs : s.sp ≤ s.cfg.stackDepth) :
    t.sp ≤ s.cfg.stackDepth := by
  unfold State.sp at *
  rcases exec_stack_cases h with hkeep | ⟨a, hpop⟩ | ⟨hroom, hpush⟩
  · rwa [hkeep]
  · rw [hpop, List.length_cons] at hs; omega
  · rw [hpush, List.length_cons]; exact hroom

/-- R27: every address on the stack stays at most 0x1000, where PC is at most 0x1000. -/
theorem exec_stackCells_le {i : Instr} {s t : State} (h : exec i s = .next t) (hpc : s.pc.toNat ≤ 0x1000)
    (hcells : ∀ a ∈ s.stack, a.toNat ≤ 0x1000) : ∀ a ∈ t.stack, a.toNat ≤ 0x1000 := by
  rcases exec_stack_cases h with hkeep | ⟨a, hpop⟩ | ⟨-, hpush⟩
  · rwa [hkeep]
  · exact fun b hb => hcells b (hpop ▸ List.mem_cons_of_mem a hb)
  · rw [hpush]; exact List.forall_mem_cons.2 ⟨hpc, hcells⟩

/-- R51: memory stays in canonical form. -/
theorem exec_memory_wf {i : Instr} {s t : State} (h : exec i s = .next t)
    (hwf : Memory.wf s.cfg.fontData s.mem = true) : Memory.wf s.cfg.fontData t.mem = true := by
  by_cases hkeep : t.mem = s.mem
  · rwa [hkeep]
  · obtain ⟨hwriters, -⟩ := eachPartHasItsWriters i s t h
    obtain ⟨-, -, hcfg, -⟩ := exec_keeps_bookkeeping h
    rw [← hcfg]
    rcases hwriters hkeep with ⟨x, rfl⟩ | ⟨x, rfl⟩ <;> exact (finish_storeBytes_next h).2 hwf

/-! ### The invariant through a step (R27, R28, R51, R201, R203, R207) -/

/-- What holds while an iteration runs (R202): the clauses of the invariant, with PC and the number of reports within given
bounds. -/
structure State.MidIteration (pcMax reportsMax : Nat) (s : State) : Prop where
  params : s.cfg.wf = true
  memory : Memory.wf s.cfg.fontData s.mem = true
  pcBound : s.pc.toNat ≤ pcMax
  stackBound : s.sp ≤ s.cfg.stackDepth
  stackCells : ∀ a ∈ s.stack, a.toNat ≤ 0x1000
  iterBound : s.iter < s.cfg.batch
  reportsBound : s.reports.length ≤ reportsMax
  lifeStarted : s.life = .started

/-- The fetch of a sound state leaves PC at most 0x1000, and a report for each iteration before this one at most. -/
theorem State.Sound.fetched {s : State} (hs : s.Sound) (hpc : s.pc.toNat ≤ 0xFFE) :
    s.fetched.MidIteration 0x1000 s.iter where
  params := by simpa [State.fetched] using hs.params
  memory := by simpa [State.fetched] using hs.memory
  pcBound := by simp only [State.fetched, setPc_pc]; bv_omega
  stackBound := by simpa [State.fetched, State.sp] using hs.stackBound
  stackCells := by simpa [State.fetched] using hs.stackCells
  iterBound := by simpa [State.fetched] using hs.iterBound
  reportsBound := by
    have hr := hs.reportsBound
    by_cases h0 : s.iter = 0
    · simp [State.fetched, h0]
    · simpa [State.fetched, h0] using hr
  lifeStarted := by simpa [State.fetched] using hs.lifeStarted

/-- An instruction keeps what holds after the fetch, but for PC, which may go up to 0x10FE. -/
theorem State.MidIteration.exec {n : Nat} {i : Instr} {s t : State} (hs : s.MidIteration 0x1000 n)
    (h : exec i s = .next t) : t.MidIteration 0x10FE n := by
  obtain ⟨-, hlife, hcfg, hiter, hreports, -⟩ := exec_keeps_bookkeeping h
  exact {
    params := hcfg ▸ hs.params
    memory := hcfg ▸ exec_memory_wf h hs.memory
    pcBound := exec_pc_le h hs.pcBound hs.stackCells
    stackBound := hcfg ▸ exec_sp_le h hs.stackBound
    stackCells := exec_stackCells_le h hs.pcBound hs.stackCells
    iterBound := by rw [hcfg, hiter]; exact hs.iterBound
    reportsBound := hreports ▸ hs.reportsBound
    lifeStarted := hlife.trans hs.lifeStarted }

/-- An unknown word adds one report and changes nothing else (R231). -/
theorem State.MidIteration.report {pcMax n : Nat} {s : State} (hs : s.MidIteration pcMax n) (w : Word) (a : Nat) :
    (s.report w a).MidIteration pcMax (n + 1) :=
  { hs with reportsBound := by simpa using hs.reportsBound }

/-- The end of an iteration leaves a sound state: the next iteration of the STEP follows, or the STEP has ended (R201,
R203). -/
theorem State.MidIteration.endIteration_sound {pcMax n : Nat} {t : State} (ht : t.MidIteration pcMax n)
    (hpc : pcMax ≤ 0x10FE) (hn : n ≤ t.iter + 1) : t.endIteration.Sound := by
  have hiter := ht.iterBound
  have hreports := ht.reportsBound.trans hn
  by_cases hgo : t.wait = .running ∧ t.iter + 1 < t.cfg.batch
  · obtain ⟨hw, hb⟩ := hgo
    rw [endIteration_goesOn t hw hb]
    exact { ht with
      pcBound := ht.pcBound.trans hpc
      iterBound := hb
      waitBetween := absurd hw
      reportsBound := hreports
      lifeStarted := fun _ => ht.lifeStarted }
  · rw [endIteration_ends t ((not_and_or.1 hgo).imp_right Nat.le_of_not_lt)]
    exact { ht with
      pcBound := ht.pcBound.trans hpc
      iterBound := Nat.zero_lt_of_lt hiter
      waitBetween := fun _ => rfl
      reportsBound := hreports.trans hiter
      lifeStarted := absurd rfl }

/-- A STEP begun while the latch is closed ticks and reports nothing (R205). -/
theorem State.Sound.waitingStep {s : State} (hs : s.Sound) : s.waitingStep.Sound :=
  { hs with
    iterBound := batch_pos_of_wf hs.params
    waitBetween := fun _ => rfl
    reportsBound := Nat.zero_le _
    lifeStarted := fun h => absurd rfl h }

/-- Settles O57: a step is the tick of a closed latch, or a fetch, an instruction or a report, and the end of the iteration;
each keeps its part of the invariant. -/
theorem stepKeepsInvariant : Obligations.StepKeepsInvariant := by
  unfold Obligations.StepKeepsInvariant
  intro s t hinv hstep _ _
  obtain ⟨hf, hl, hcases⟩ := step_next_cases hstep
  have hs : s.Sound := hinv hf hl
  rcases hcases with ⟨r, -, rfl⟩ | ⟨-, hpc, ⟨i, u, -, hu, rfl⟩ | ⟨e, -, rfl⟩⟩
  · exact hs.waitingStep
  · have hiter : u.iter = s.iter := by
      obtain ⟨-, -, -, hiter, -⟩ := exec_keeps_bookkeeping hu
      simpa [State.fetched] using hiter
    exact ((hs.fetched hpc).exec hu).endIteration_sound (Nat.le_refl _) (by omega)
  · exact ((hs.fetched hpc).report _ _).endIteration_sound (by omega) (by simp [State.fetched])

end Sys2Proof.Machine

/-! PROOFS. Memory between the instructions and the driver (R53, R61, R63, R213): what LD [I],Vx stores and the next fetch
reads, that the driver acts between STEPs only, and the table word made ready to be fetched (logs 15, 16, 17). -/

namespace Sys2Proof.Machine

/-! ### Stored registers, fetched as a word (R53, R63, R154) -/

/-- LD [I],Vx where `I + x` is in memory: register k is stored at `I + k`, and no other byte changes (R154). -/
theorem exec_storeRegs_next (x : Reg) (s : State) (h : s.i.toNat + x.val ≤ 0xFFF) :
    ∃ t, exec (.storeRegs x) s = .next t ∧ OnlyMemChanges s t ∧
      (∀ k : Reg, k ≤ x → t.byteAt (dataAddr s k.val) = s.reg k) ∧
      KeepsBytesOutside (dataAddr s 0) (x.val + 1) s t := by
  have hlen := length_regsThrough s x
  obtain ⟨t, hstore, honly, hbyte, -⟩ := storeBytes_ok (s.regsThrough x) s (dataAddr s 0)
    (by simp only [hlen, dataAddr, memSize_eq]; omega)
  refine ⟨t, by simp only [exec, execStoreRegs, hstore, finish], honly, fun k hk => ?stored, fun b hb => ?outside⟩
  case stored =>
    have hk : k.val ≤ x.val := hk
    have hin : dataAddr s 0 ≤ dataAddr s k.val ∧ dataAddr s k.val < dataAddr s 0 + (s.regsThrough x).length := by
      simp only [hlen, dataAddr]; omega
    have hoff : dataAddr s k.val - dataAddr s 0 = k.val := by simp [dataAddr]
    rw [hbyte, dif_pos hin, getElem_regsThrough, hoff, Fin.ofNat_val_eq_self]
  case outside => rw [hbyte, dif_neg (by omega)]

/-- Settles O28: V0 and V1 stand at `I` and `I + 1`, which is where a fetch with PC at `I` reads. -/
theorem storedWordIsFetched : Obligations.StoredWordIsFetched := by
  unfold Obligations.StoredWordIsFetched
  intro x s hx hi
  obtain ⟨t, ht, -, hstored, -⟩ := exec_storeRegs_next x s hi
  have hhigh : t.byteAt s.i.toNat = s.reg 0 := hstored 0 (Fin.zero_le x)
  have hlow : t.byteAt (s.i.toNat + 1) = s.reg 1 := hstored 1 (show 1 ≤ x.val from hx)
  refine ⟨t, ht, t.wordAt s.i.toNat, ?word, fetch_ok (t.setPc s.i) (show s.i.toNat ≤ 0xFFE by omega)⟩
  case word => rw [State.wordAt, toNat_wordOfBytes, hhigh, hlow]

/-! ### The driver between STEPs (R61, R213) -/

/-- A STEP that ends well was the tick of a closed latch, or a batch and the tick after it (R201, R205). -/
theorem wholeStep_next_cases {s t : State} (h : wholeStep s = .next t) :
    s.fault = none ∧ s.life ≠ .loadFailed ∧
      ((∃ r, s.wait = .awaitingKey r ∧ t = s.beginStep.tick) ∨
        (s.wait = .running ∧ t = (batchReach s.cfg.batch s.beginStep).tick)) := by
  simp only [wholeStep] at h
  split at h
  · cases h
  next hf =>
    split at h
    · cases h
    next hl =>
      split at h
      next r hw => cases h; exact ⟨hf, hl, .inl ⟨r, hw, rfl⟩⟩
      next hw => exact ⟨hf, hl, .inr ⟨hw, batchFrom_next h⟩⟩

theorem wholeStep_iter {s t : State} (h : wholeStep s = .next t) : t.iter = s.iter := by
  obtain ⟨-, -, ⟨r, -, rfl⟩ | ⟨-, rfl⟩⟩ := wholeStep_next_cases h
  · simp
  · obtain ⟨-, -, -, hiter, -⟩ := batchReach_keeps_bookkeeping s.cfg.batch s.beginStep
    simpa using hiter

theorem loadRom_iter (s : State) (bytes : List Byte) : (s.loadRom bytes).iter = s.iter := by
  obtain ⟨⟨m, hm⟩, -⟩ := setBytesFrom_spec bytes s Config.loadBase
  exact (congrArg State.iter hm :)

theorem loadRejected_iter (s : State) (bytes : List Byte) : (s.loadRejected bytes).iter = s.iter := rfl

theorem settle_iter_eq_zero {s : State} (h : s.iter = 0) : s.settle.iter = 0 := by
  cases hf : s.fault with
  | none => rwa [settle_running s hf]
  | some f => rw [settle_faulted s f hf, latchFault_iter]

theorem performStep_iter_eq_zero {s t : State} {r : Reply} (h0 : s.iter = 0) (h : performStep s = .answered r t) :
    t.iter = 0 := by
  rcases performStep_cases h with ⟨f, -, rfl⟩ | ⟨hs, -⟩ | ⟨f, -, -, rfl⟩
  · exact h0
  · exact (wholeStep_iter hs).trans h0
  · exact latchFault_iter f _

theorem performLoad_iter_eq_zero {bytes : List Byte} {s t : State} {r : Reply} (h0 : s.iter = 0)
    (h : performLoad bytes s = .answered r t) : t.iter = 0 := by
  have h := answered_of_guarded h
  split at h <;> cases h
  · exact (loadRom_iter s bytes).trans h0
  · exact (loadRejected_iter s bytes).trans h0

theorem perform_refused_of_iter_ne_zero (op : DriverOp) {s : State} (h : s.iter ≠ 0) :
    perform op s = .refused .operationDuringStep :=
  if_pos h

/-- R213: an operation that is answered began between STEPs, and each of the six ends there. -/
theorem perform_iter_eq_zero {op : DriverOp} {s t : State} {r : Reply} (h : perform op s = .answered r t) : t.iter = 0 := by
  have h0 : s.iter = 0 := by
    by_contra hne
    rw [perform_refused_of_iter_ne_zero op hne] at h
    cases h
  cases op with
  | reset p =>
    have h : performReset p s = .answered r t := answered_of_guarded h
    rw [performReset] at h
    split at h <;> cases h
    rfl
  | load bytes => exact performLoad_iter_eq_zero h0 (answered_of_guarded h)
  | step => exact performStep_iter_eq_zero h0 (answered_of_guarded h)
  | setKey k p =>
    rw [perform_setKey_answered h]
    exact settle_iter_eq_zero ((setKey_iter s k p).trans h0)
  | readFb =>
    have h : OpOutcome.answered (.framebuffer s.fb) s = .answered r t := answered_of_guarded (answered_of_guarded h)
    cases h; exact h0
  | readSt =>
    have h : OpOutcome.answered (.soundTimer s.st) s = .answered r t := answered_of_guarded (answered_of_guarded h)
    cases h; exact h0

/-- Settles O54: the guard on `iter` refuses inside a STEP, and what passes it ends between STEPs. -/
theorem operationsLandBetweenSteps : Obligations.OperationsLandBetweenSteps := by
  unfold Obligations.OperationsLandBetweenSteps
  exact ⟨fun op s h => perform_refused_of_iter_ne_zero op h, fun op s t r h => perform_iter_eq_zero h⟩

/-! ### A table word made ready (logs 15, 16) -/

/-- The decoder reads from a 16-bit table word what EXACT reads from the word (R53, R76). -/
theorem decodeTableWord_16_eq_some (w : Nat) (i : Instr) :
    decodeTableWord 16 w = some i ↔ decode .exact (BitVec.ofNat 16 w) = .ok i := by
  rw [decodeTableWord, tableWord_16, wordBytes, decodeBytes, wordOfBytes_bytes]
  cases decode .exact (BitVec.ofNat 16 w) <;> simp

/-- The two bytes at the address of the fetch are the table word's, every other byte is as before. -/
theorem byteAt_withFetchWord (s : State) (nbits w b : Nat) :
    (s.withFetchWord nbits w).byteAt b =
      if b = s.fetchAddr.toNat + 1 then lowByte (tableWord nbits w)
      else if b = s.fetchAddr.toNat then highByte (tableWord nbits w) else s.byteAt b := by
  rw [withFetchWord_eq, byteAt_setByte, byteAt_setByte]
  rfl

theorem withFetchWord_pc (s : State) (nbits w : Nat) : (s.withFetchWord nbits w).pc = s.fetchAddr := rfl

theorem wordAt_withFetchWord (s : State) (nbits w : Nat) :
    (s.withFetchWord nbits w).wordAt s.fetchAddr.toNat = tableWord nbits w := by
  simp [State.wordAt, byteAt_withFetchWord]

theorem withFetchWord_canRun (s : State) (nbits w : Nat) : (s.withFetchWord nbits w).CanRun := by
  refine ⟨rfl, ?_, rfl⟩
  rw [withFetchWord_eq, setByte_life, setByte_life, State.readied]
  by_cases hl : s.life = .loadFailed
  · simp [hl]
  · rwa [if_neg hl]

theorem fetchAddr_eq_pc {s : State} (h : s.pc.toNat ≤ 0xFFE) : s.fetchAddr = s.pc := if_pos h

theorem readied_of_canRun {s : State} (hrun : s.CanRun) (hpc : s.pc.toNat ≤ 0xFFE) : s.readied = s := by
  obtain ⟨hf, hl, hw⟩ := hrun
  rw [State.readied, fetchAddr_eq_pc hpc, if_neg hl, ← hf, ← hw]

theorem withFetchWord_onlyMemChanges {s : State} (nbits w : Nat) (hrun : s.CanRun) (hpc : s.pc.toNat ≤ 0xFFE) :
    OnlyMemChanges s (s.withFetchWord nbits w) := by
  rw [withFetchWord_eq, readied_of_canRun hrun hpc]
  exact (onlyMemChanges_setByte _ _ _).trans (onlyMemChanges_setByte _ _ _)

/-- Settles O59: the bytes put at PC are the word's, high byte first, and putting them there is all that happens to a
machine that can already fetch. -/
theorem fetchWordIsFetched : Obligations.FetchWordIsFetched := by
  unfold Obligations.FetchWordIsFetched
  intro s w hw
  refine ⟨withFetchWord_canRun s 16 w, fetchAddr_le s, ?word, decodeTableWord_16_eq_some w,
    fun hrun hpc => ⟨?parts, fun b hb => ?bytes⟩⟩
  case word =>
    rw [withFetchWord_pc, wordAt_withFetchWord, tableWord_16, BitVec.toNat_ofNat, Nat.mod_eq_of_lt hw]
  case parts => exact keepsAllBut_of_onlyMem (withFetchWord_onlyMemChanges 16 w hrun hpc)
  case bytes => rw [byteAt_withFetchWord, fetchAddr_eq_pc hpc, if_neg (by omega), if_neg (by omega)]

end Sys2Proof.Machine

/-! PROOFS. The decoder and the encoder (R71 to R78, R83): a word is a format's word exactly when its fields are the parts,
each secondary table of R74 answers for the fields it is keyed by, and from these decode and encode undo each other. -/

namespace Sys2Proof

open Config (DecodeMode)

/-! ### A word and the parts of its format (R71, R72) -/

theorem formatNNN_eq_iff {op : BitVec 4} {nnn : Addr12} {w : Word} :
    formatNNN op nnn = w ↔ nibble1 w = op ∧ fieldNNN w = nnn := by
  constructor
  · rintro rfl
    simp
  · rintro ⟨rfl, rfl⟩
    exact formatNNN_fields w

theorem formatXNN_eq_iff {op : BitVec 4} {x : Reg} {nn : Byte} {w : Word} :
    formatXNN op x nn = w ↔ nibble1 w = op ∧ fieldX w = x ∧ fieldNN w = nn := by
  constructor
  · rintro rfl
    simp
  · rintro ⟨rfl, rfl, rfl⟩
    exact formatXNN_fields w

theorem formatXYN_eq_iff {op : BitVec 4} {x y : Reg} {n : BitVec 4} {w : Word} :
    formatXYN op x y n = w ↔ nibble1 w = op ∧ fieldX w = x ∧ fieldY w = y ∧ fieldN w = n.toFin := by
  constructor
  · rintro rfl
    simp
  · rintro ⟨rfl, rfl, rfl, hn⟩
    rw [← nib_toFin n, ← hn]
    exact formatXYN_fields w

/-! ### The dispatcher by its selector (R74) -/

section Selector
variable {mode : DecodeMode} {w : Word}

theorem decode_group0 (h : nibble1 w = 0x0) : decode mode w = decodeGroup0 mode w := by simp [decode, h]

theorem decode_group5 (h : nibble1 w = 0x5) :
    decode mode w = decodeIgnoringN mode w (.seReg (fieldX w) (fieldY w)) := by simp [decode, h]

theorem decode_group8 (h : nibble1 w = 0x8) : decode mode w = decodeGroup8 w := by simp [decode, h]

theorem decode_group9 (h : nibble1 w = 0x9) :
    decode mode w = decodeIgnoringN mode w (.sneReg (fieldX w) (fieldY w)) := by simp [decode, h]

theorem decode_groupE (h : nibble1 w = 0xE) : decode mode w = decodeGroupE w := by simp [decode, h]

theorem decode_groupF (h : nibble1 w = 0xF) : decode mode w = decodeGroupF w := by simp [decode, h]

end Selector

/-- A selector without a secondary table leaves no word of its group out: each is some instruction's (R74, R75). -/
theorem exists_encode_eq_of_no_table {w : Word} (h : nibble1 w ∉ [0x0, 0x5, 0x8, 0x9, 0xE, 0xF]) :
    ∃ i, encode i = w := by
  have hops : ∀ op : BitVec 4, op ∉ [0x0, 0x5, 0x8, 0x9, 0xE, 0xF] →
      op = 0x1 ∨ op = 0x2 ∨ op = 0x3 ∨ op = 0x4 ∨ op = 0x6 ∨ op = 0x7 ∨ op = 0xA ∨ op = 0xB ∨ op = 0xC ∨ op = 0xD := by
    decide
  rcases hops _ h with h | h | h | h | h | h | h | h | h | h
  · exact ⟨.jp (fieldNNN w), formatNNN_eq_iff.2 ⟨h, rfl⟩⟩
  · exact ⟨.call (fieldNNN w), formatNNN_eq_iff.2 ⟨h, rfl⟩⟩
  · exact ⟨.seImm (fieldX w) (fieldNN w), formatXNN_eq_iff.2 ⟨h, rfl, rfl⟩⟩
  · exact ⟨.sneImm (fieldX w) (fieldNN w), formatXNN_eq_iff.2 ⟨h, rfl, rfl⟩⟩
  · exact ⟨.ldImm (fieldX w) (fieldNN w), formatXNN_eq_iff.2 ⟨h, rfl, rfl⟩⟩
  · exact ⟨.addImm (fieldX w) (fieldNN w), formatXNN_eq_iff.2 ⟨h, rfl, rfl⟩⟩
  · exact ⟨.ldI (fieldNNN w), formatNNN_eq_iff.2 ⟨h, rfl⟩⟩
  · exact ⟨.jpV0 (fieldNNN w), formatNNN_eq_iff.2 ⟨h, rfl⟩⟩
  · exact ⟨.rnd (fieldX w) (fieldNN w), formatXNN_eq_iff.2 ⟨h, rfl, rfl⟩⟩
  · exact ⟨.drw (fieldX w) (fieldY w) (fieldN w), formatXYN_eq_iff.2 ⟨h, rfl, rfl, rfl⟩⟩

/-- The six selectors with a secondary table, and the rest. -/
theorem selector_cases (w : Word) :
    nibble1 w = 0x0 ∨ nibble1 w = 0x5 ∨ nibble1 w = 0x8 ∨ nibble1 w = 0x9 ∨ nibble1 w = 0xE ∨ nibble1 w = 0xF ∨
      nibble1 w ∉ [0x0, 0x5, 0x8, 0x9, 0xE, 0xF] := by
  simp only [List.mem_cons, List.not_mem_nil]
  tauto

/-! ### The secondary tables (R75 to R77) -/

theorem decodeGroup0_ok_iff {mode : DecodeMode} {w : Word} {i : Instr} :
    decodeGroup0 mode w = .ok i ↔
      (mode = .exact → fieldX w = 0) ∧ (fieldNN w = 0xE0 ∧ i = .cls ∨ fieldNN w = 0xEE ∧ i = .ret) := by
  have hE0 : fieldNN w = 0xE0 ↔ (fieldNN w).toNat = 0xE0 := BitVec.toNat_inj.symm
  have hEE : fieldNN w = 0xEE ↔ (fieldNN w).toNat = 0xEE := BitVec.toNat_inj.symm
  rw [decodeGroup0, hE0, hEE]
  by_cases hx : mode = .exact ∧ fieldX w ≠ 0
  · simp [hx]
  · rw [if_neg hx, and_iff_right (not_and_not_right.1 hx)]
    split
    case h_1 hnn => simp [hnn, @eq_comm _ i]
    case h_2 hnn => simp [hnn, @eq_comm _ i]
    case h_3 hcls hret => exact iff_of_false nofun (by tauto)

theorem decodeIgnoringN_ok_iff {mode : DecodeMode} {w : Word} {i j : Instr} :
    decodeIgnoringN mode w j = .ok i ↔ (mode = .exact → fieldN w = 0) ∧ i = j := by
  rw [decodeIgnoringN]
  by_cases hn : mode = .exact ∧ fieldN w ≠ 0
  · simp [hn]
  · rw [if_neg hn, and_iff_right (not_and_not_right.1 hn)]
    simp [@eq_comm _ i]

theorem decodeGroup0_exact_unknown_iff {w : Word} (hw : nibble1 w = 0x0) :
    decodeGroup0 .exact w = .error (.unknownInstruction w) ↔ w ≠ 0x00E0 ∧ w ≠ 0x00EE := by
  constructor
  · intro h
    constructor <;> (rintro rfl; cases h)
  · rintro ⟨hcls, hret⟩
    by_cases hx : fieldX w = 0
    · rw [decodeGroup0, if_neg (by simp [hx])]
      split
      case h_1 hnn => exact absurd (formatXNN_eq_iff (nn := 0xE0).2 ⟨hw, hx, BitVec.eq_of_toNat_eq hnn⟩).symm hcls
      case h_2 hnn => exact absurd (formatXNN_eq_iff (nn := 0xEE).2 ⟨hw, hx, BitVec.eq_of_toNat_eq hnn⟩).symm hret
      case h_3 => rfl
    · rw [decodeGroup0, if_pos ⟨rfl, hx⟩]

theorem decodeIgnoringN_exact_unknown_iff {w : Word} {j : Instr} :
    decodeIgnoringN .exact w j = .error (.unknownInstruction w) ↔ fieldN w ≠ 0 := by
  simp [decodeIgnoringN]

theorem encode_of_decodeGroup8 {w : Word} {i : Instr} (hw : nibble1 w = 0x8) (h : decodeGroup8 w = .ok i) :
    encode i = w := by
  unfold decodeGroup8 at h
  split at h <;> cases h
  all_goals exact formatXYN_eq_iff.2 ⟨hw, rfl, rfl, Fin.ext ‹_›⟩

theorem encode_of_decodeGroupE {w : Word} {i : Instr} (hw : nibble1 w = 0xE) (h : decodeGroupE w = .ok i) :
    encode i = w := by
  unfold decodeGroupE at h
  split at h <;> cases h
  all_goals exact formatXNN_eq_iff.2 ⟨hw, rfl, BitVec.eq_of_toNat_eq ‹_›⟩

theorem encode_of_decodeGroupF {w : Word} {i : Instr} (hw : nibble1 w = 0xF) (h : decodeGroupF w = .ok i) :
    encode i = w := by
  unfold decodeGroupF at h
  split at h <;> cases h
  all_goals exact formatXNN_eq_iff.2 ⟨hw, rfl, BitVec.eq_of_toNat_eq ‹_›⟩

theorem decodeGroup8_unknown_iff {w : Word} :
    decodeGroup8 w = .error (.unknownInstruction w) ↔ (fieldN w).val ∈ [0x8, 0x9, 0xA, 0xB, 0xC, 0xD, 0xF] := by
  unfold decodeGroup8
  generalize fieldN w = n
  fin_cases n <;> simp

theorem decodeGroupE_unknown_iff {w : Word} :
    decodeGroupE w = .error (.unknownInstruction w) ↔ (fieldNN w).toNat ∉ [0x9E, 0xA1] := by
  unfold decodeGroupE
  split <;> simp_all

theorem decodeGroupF_unknown_iff {w : Word} :
    decodeGroupF w = .error (.unknownInstruction w) ↔
      (fieldNN w).toNat ∉ [0x07, 0x0A, 0x15, 0x18, 0x1E, 0x29, 0x33, 0x55, 0x65] := by
  unfold decodeGroupF
  split <;> simp_all

/-! ### Encode, then decode -/

/-- Settles O2: the parts of a format's word are its fields, and the dispatcher and the secondary tables read nothing
but these. -/
theorem encodeThenDecodeGivesBack : Obligations.EncodeThenDecodeGivesBack := by
  unfold Obligations.EncodeThenDecodeGivesBack
  intro mode i
  cases i
  case cls | ret => cases mode <;> rfl
  case jp nnn | call nnn | ldI nnn | jpV0 nnn => simp [decode, encode]
  case seImm x nn | sneImm x nn | ldImm x nn | addImm x nn | rnd x nn => simp [decode, encode]
  case seReg x y | sneReg x y => simp [decode, encode, decodeIgnoringN_ok_iff]
  case drw x y n => simp [decode, encode]
  case ldReg x y | orReg x y | andReg x y | xorReg x y | addReg x y | sub x y | shr x y | subn x y | shl x y =>
    rw [encode, decode_group8 (nibble1_formatXYN _ _ _ _)]
    simp [decodeGroup8]
  case skp x | sknp x =>
    rw [encode, decode_groupE (nibble1_formatXNN _ _ _)]
    simp [decodeGroupE]
  all_goals
    rw [encode, decode_groupF (nibble1_formatXNN _ _ _)]
    simp [decodeGroupF]

/-- A word is read by finding the instruction whose word it is. -/
theorem decode_of_encode_eq {mode : DecodeMode} {w : Word} {i : Instr} (h : encode i = w) : decode mode w = .ok i :=
  h ▸ encodeThenDecodeGivesBack mode i

/-! ### What each mode reads (R76 to R78) -/

/-- Settles O3: EXACT answers an instruction only where the nibble that TABLE2 ignores is 0, so every field of the word is
an operand or fixed. -/
theorem exactDecodeThenEncodeGivesBack : Obligations.ExactDecodeThenEncodeGivesBack := by
  unfold Obligations.ExactDecodeThenEncodeGivesBack
  intro w i h
  rcases selector_cases w with hw | hw | hw | hw | hw | hw | hw
  · obtain ⟨hx, ⟨hnn, rfl⟩ | ⟨hnn, rfl⟩⟩ := decodeGroup0_ok_iff.1 (decode_group0 hw ▸ h)
    · exact formatXNN_eq_iff.2 ⟨hw, hx rfl, hnn⟩
    · exact formatXNN_eq_iff.2 ⟨hw, hx rfl, hnn⟩
  · obtain ⟨hn, rfl⟩ := decodeIgnoringN_ok_iff.1 (decode_group5 hw ▸ h)
    exact formatXYN_eq_iff.2 ⟨hw, rfl, rfl, hn rfl⟩
  · exact encode_of_decodeGroup8 hw (decode_group8 hw ▸ h)
  · obtain ⟨hn, rfl⟩ := decodeIgnoringN_ok_iff.1 (decode_group9 hw ▸ h)
    exact formatXYN_eq_iff.2 ⟨hw, rfl, rfl, hn rfl⟩
  · exact encode_of_decodeGroupE hw (decode_groupE hw ▸ h)
  · exact encode_of_decodeGroupF hw (decode_groupF hw ▸ h)
  · obtain ⟨j, rfl⟩ := exists_encode_eq_of_no_table hw
    rw [encodeThenDecodeGivesBack] at h
    cases h
    rfl

/-- Settles O4: each line of R78's table is the part its secondary table leaves out. -/
theorem unknownWordsUnderExact : Obligations.UnknownWordsUnderExact := by
  unfold Obligations.UnknownWordsUnderExact
  intro w
  rcases selector_cases w with hw | hw | hw | hw | hw | hw | hw
  · simp [hw, decode_group0 hw, decodeGroup0_exact_unknown_iff hw]
  · simp [hw, decode_group5 hw, decodeIgnoringN_exact_unknown_iff]
  · simp [hw, decode_group8 hw, decodeGroup8_unknown_iff]
  · simp [hw, decode_group9 hw, decodeIgnoringN_exact_unknown_iff]
  · simp [hw, decode_groupE hw, decodeGroupE_unknown_iff]
  · simp [hw, decode_groupF hw, decodeGroupF_unknown_iff]
  · obtain ⟨i, rfl⟩ := exists_encode_eq_of_no_table hw
    rw [encodeThenDecodeGivesBack]
    simp_all

/-- Settles O5: the mode is looked at in groups 0x0, 0x5 and 0x9 only, and there it matters when the nibble that TABLE2
ignores is not 0. -/
theorem table2DiffersInThreePlaces : Obligations.Table2DiffersInThreePlaces := by
  unfold Obligations.Table2DiffersInThreePlaces
  intro w i
  rcases selector_cases w with hw | hw | hw | hw | hw | hw | hw
  · by_cases hx : fieldX w = 0 <;> simp [hw, hx, decode_group0 hw, decodeGroup0_ok_iff]
  · by_cases hn : fieldN w = 0 <;> simp [hw, hn, decode_group5 hw, decodeIgnoringN_ok_iff]
  · simp [hw, decode_group8 hw]
  · by_cases hn : fieldN w = 0 <;> simp [hw, hn, decode_group9 hw, decodeIgnoringN_ok_iff]
  · simp [hw, decode_groupE hw]
  · simp [hw, decode_groupF hw]
  · obtain ⟨j, rfl⟩ := exists_encode_eq_of_no_table hw
    rw [encodeThenDecodeGivesBack, encodeThenDecodeGivesBack]
    simp_all

/-- Settles O1: each known word is the word of its instruction (O2), each unknown one is in R78's table (O4). -/
theorem specWordsDecodeAsWritten : Obligations.SpecWordsDecodeAsWritten := by
  unfold Obligations.SpecWordsDecodeAsWritten
  refine ⟨fun mode => ⟨?_, ?_, ?_, ?_, ?_, ?_, ?_, ?_, ?_, ?_⟩, ?_, ?_, ?_, ?_, ?_⟩
  iterate 10 exact decode_of_encode_eq (by decide)
  iterate 5 exact (unknownWordsUnderExact _).2 (by decide)

end Sys2Proof

/-! PROOFS. Control flow (`40_control_flow.md` R100 to R108): the jumps and the skips write PC only, CALL and RET write PC
and the stack only, and the low nibble of the register skips is 0 or ignored by the mode. -/

namespace Sys2Proof.Machine

/-! ### Jumps and skips: PC only (R101, R103 to R108) -/

/-- Settles O7: the target is the immediate at 16 bits, and PC alone is written. -/
theorem jumpSetsPc : Obligations.JumpSetsPc := by
  unfold Obligations.JumpSetsPc
  exact fun nnn => ⟨rfl, fun s => ⟨s.setPc (immAddr nnn), rfl, toNat_immAddr nnn, keepsAllBut_setPc s _⟩⟩

/-- Settles O12: the sum is below 2^16 and so not reduced, and the parameter names the register that is added. -/
theorem jumpAddsOffsetRegister : Obligations.JumpAddsOffsetRegister := by
  unfold Obligations.JumpAddsOffsetRegister
  refine fun nnn => ⟨rfl, fun s => ⟨s.setPc (jumpTarget s nnn), rfl, ?v0, ?vx, keepsAllBut_setPc s _⟩⟩
  case v0 =>
    intro hv
    rw [setPc_pc, toNat_jumpTarget, jumpOffsetRegister_v0 hv]
  case vx =>
    intro hv x hx
    rw [setPc_pc, toNat_jumpTarget, jumpOffsetRegister_vx hv hx]

/-- The skip law (R107) for an instruction that is a skip on `c`. -/
theorem exec_skip {i : Instr} {s : State} {c : Prop} [Decidable c] (h : exec i s = .next (s.skipIf c)) :
    ∃ t, exec i s = .next t ∧ t.pc = (if c then s.pc + 2 else s.pc) ∧ KeepsAllBut [.pc] s t :=
  ⟨s.skipIf c, h, by simp, keepsAllBut_skipIf s c⟩

/-- Settles O10: both are skips, on the two sides of one condition. -/
theorem skipComparesImmediate : Obligations.SkipComparesImmediate := by
  unfold Obligations.SkipComparesImmediate
  exact fun x nn => ⟨rfl, rfl, fun s => ⟨exec_skip rfl, exec_skip rfl⟩⟩

/-- A table that ignores the low nibble, on a word of format XYN: EXACT wants the nibble 0, TABLE2 takes any. -/
theorem decodeIgnoringN_formatXYN_ok_iff {mode : Config.DecodeMode} {op : BitVec 4} {x y : Reg} {n : BitVec 4}
    {i j : Instr} : decodeIgnoringN mode (formatXYN op x y n) j = .ok i ↔ (mode = .exact → n = 0) ∧ i = j := by
  have hn : n.toFin = 0 ↔ n = 0 := BitVec.toFin_inj (y := 0)
  rw [decodeIgnoringN_ok_iff, fieldN_formatXYN, hn]

theorem decode_seReg_word_ok_iff {mode : Config.DecodeMode} {x y : Reg} {n : BitVec 4} {i : Instr} :
    decode mode (formatXYN 0x5 x y n) = .ok i ↔ (mode = .exact → n = 0) ∧ i = .seReg x y := by
  rw [decode_group5 (nibble1_formatXYN _ _ _ _), decodeIgnoringN_formatXYN_ok_iff, fieldX_formatXYN, fieldY_formatXYN]

theorem decode_sneReg_word_ok_iff {mode : Config.DecodeMode} {x y : Reg} {n : BitVec 4} {i : Instr} :
    decode mode (formatXYN 0x9 x y n) = .ok i ↔ (mode = .exact → n = 0) ∧ i = .sneReg x y := by
  rw [decode_group9 (nibble1_formatXYN _ _ _ _), decodeIgnoringN_formatXYN_ok_iff, fieldX_formatXYN, fieldY_formatXYN]

/-- Settles O11: the low nibble matters under EXACT only, where it must be 0, and both instructions are skips, on the two
sides of one condition. -/
theorem skipComparesRegisters : Obligations.SkipComparesRegisters := by
  unfold Obligations.SkipComparesRegisters
  refine fun x y => ⟨rfl, rfl, ?ignored, ?zero, fun s => ⟨exec_skip rfl, exec_skip rfl⟩⟩
  case ignored =>
    exact fun n => ⟨decode_seReg_word_ok_iff.2 ⟨nofun, rfl⟩, decode_sneReg_word_ok_iff.2 ⟨nofun, rfl⟩⟩
  case zero =>
    intro n hn
    constructor <;> intro i h
    · exact hn ((decode_seReg_word_ok_iff.1 h).1 rfl)
    · exact hn ((decode_sneReg_word_ok_iff.1 h).1 rfl)

/-! ### CALL and RET: PC and the stack (R28, R100, R102) -/

theorem keepsAllBut_setPcStack (s : State) (a : Word) (cells : List Word) :
    KeepsAllBut [.pc, .stack] s { s with pc := a, stack := cells } := by
  intro p hp
  cases p
  case pc | stack => simp at hp
  case mem | v | key => exact fun _ => rfl
  case fb => exact fun _ _ => rfl
  all_goals exact rfl

theorem stackCell_congr {s t : State} (h : t.stack = s.stack) (k : Nat) : t.stackCell k = s.stackCell k := by
  rw [State.stackCell, State.stackCell, h]

/-- A pop leaves the cells below the newest where they are: the push that undoes it does. -/
theorem stackCell_pop {s t : State} {a : Word} {k : Nat} (h : s.stack = a :: t.stack) (hk : k < t.sp) :
    t.stackCell k = s.stackCell k := by
  rw [← stackCell_push t a k hk]
  exact stackCell_congr h.symm k

theorem exec_call_of_room {nnn : Addr12} {s : State} (h : s.sp < s.cfg.stackDepth) :
    exec (.call nnn) s = .next { s with pc := immAddr nnn, stack := s.pc :: s.stack } := by
  simp [exec, execCall, pushPc_ok s h, State.setPc]

theorem exec_call_of_full {nnn : Addr12} {s : State} (h : s.cfg.stackDepth ≤ s.sp) :
    exec (.call nnn) s = .fault .stackOverflow := by
  simp [exec, execCall, pushPc_error s h, raise]

theorem exec_ret_of_nil {s : State} (h : s.stack = []) : exec .ret s = .fault .stackUnderflow := by
  simp [exec, execRet, popPc, h, finish, raise]

theorem exec_ret_of_cons {s : State} {a : Word} {rest : List Word} (h : s.stack = a :: rest) :
    exec .ret s = .next { s with pc := a, stack := rest } := by
  simp [exec, execRet, popPc, h, finish]

/-- Settles O6: the stack is empty or has a newest cell, which the pop takes off and puts into PC. -/
theorem retPopsNewestAddress : Obligations.RetPopsNewestAddress := by
  unfold Obligations.RetPopsNewestAddress
  refine ⟨rfl, fun s h => exec_ret_of_nil (List.length_eq_zero_iff.1 h), fun s h => ?_⟩
  obtain ⟨a, rest, hs⟩ := List.exists_cons_of_length_pos h
  have hsp : s.sp - 1 = rest.length := by simp [State.sp, hs]
  exact ⟨{ s with pc := a, stack := rest }, exec_ret_of_cons hs, hsp.symm, stackCell_top s a rest hs,
    fun k hk => stackCell_pop hs hk, keepsAllBut_setPcStack s a rest⟩

/-- Settles O8: with room the push puts PC above the older cells, without it CALL faults. -/
theorem callPushesReturnAddress : Obligations.CallPushesReturnAddress := by
  unfold Obligations.CallPushesReturnAddress
  refine fun nnn => ⟨rfl, fun s h => exec_call_of_full h.ge, fun s h => ?_⟩
  exact ⟨{ s with pc := immAddr nnn, stack := s.pc :: s.stack }, exec_call_of_room h, toNat_immAddr nnn, rfl,
    stackCell_push_self s s.pc, fun k hk => stackCell_push s s.pc k hk, keepsAllBut_setPcStack s _ _⟩

/-- Settles O9: RET pops the cell CALL pushed, so the state after both is the one before. -/
theorem callThenRetComesBack : Obligations.CallThenRetComesBack := by
  unfold Obligations.CallThenRetComesBack
  intro nnn s h
  exact ⟨_, s, exec_call_of_room h, exec_ret_of_cons rfl, rfl, rfl, .rfl⟩

end Sys2Proof.Machine

/-! PROOFS. Arithmetic and logic (`41_alu.md` R120 to R131): the loads and the logic write Vx only, the flag-writing
instructions Vx and then VF by the flag-last rule (R23), and what is left of each is the arithmetic of its two bytes. -/

namespace Sys2Proof.Machine

/-! ### Vx only (R120 to R125) -/

section OneRegister
variable {i : Instr} {s : State} {x : Reg} {b : Byte}

/-- What an instruction does that is a load of one register (R15). -/
theorem exec_setReg (h : exec i s = .next (s.setReg x b)) :
    ∃ t, exec i s = .next t ∧ t.reg x = b ∧ KeepsRegsBut [x] s t ∧ KeepsAllBut [.v] s t :=
  ⟨s.setReg x b, h, reg_setReg_self s x b, keepsRegsBut_setReg s x b, keepsAllBut_setReg s x b⟩

/-- The same where the loaded byte is known bit by bit. -/
theorem exec_setReg_bits {f : Nat → Bool} (h : exec i s = .next (s.setReg x b)) (hb : ∀ k, b.getLsbD k = f k) :
    ∃ t, exec i s = .next t ∧ (∀ k, (t.reg x).getLsbD k = f k) ∧ KeepsRegsBut [x] s t ∧ KeepsAllBut [.v] s t := by
  obtain ⟨t, ht, rfl, hregs, hparts⟩ := exec_setReg h
  exact ⟨t, ht, hb, hregs, hparts⟩

end OneRegister

/-- Settles O13: a load of one register. -/
theorem loadImmediateSetsRegister : Obligations.LoadImmediateSetsRegister := by
  unfold Obligations.LoadImmediateSetsRegister
  exact fun x nn => ⟨rfl, fun s => exec_setReg rfl⟩

/-- Settles O14: the load of the sum keeps every register but Vx, so it keeps VF unless that is Vx. -/
theorem addImmediateLeavesFlag : Obligations.AddImmediateLeavesFlag := by
  unfold Obligations.AddImmediateLeavesFlag
  refine fun x nn => ⟨rfl, fun s => ?_⟩
  obtain ⟨t, ht, hx, hregs, hparts⟩ := exec_setReg (i := .addImm x nn) (s := s) rfl
  refine ⟨t, ht, ?sum, ?flag, hregs, hparts⟩
  case sum => rw [hx, BitVec.toNat_add]
  case flag => exact fun hne => hregs VF (by simpa using hne.symm)

/-- Settles O15: four loads of one register, and the bits of OR, AND and XOR are those of the two bytes. -/
theorem copyAndLogicLeaveFlag : Obligations.CopyAndLogicLeaveFlag := by
  unfold Obligations.CopyAndLogicLeaveFlag
  refine fun x y => ⟨rfl, rfl, rfl, rfl, fun s => ⟨exec_setReg rfl, ?or, ?and, ?xor⟩⟩
  case or => exact exec_setReg_bits rfl fun _ => BitVec.getLsbD_or
  case and => exact exec_setReg_bits rfl fun _ => BitVec.getLsbD_and
  case xor => exact exec_setReg_bits rfl fun _ => BitVec.getLsbD_xor

/-! ### Vx, then VF (R23, R126 to R130) -/

/-- What an instruction does that writes a result and then the flag: where Vx is VF, the flag remains (R23). -/
theorem exec_setResultAndFlag {i : Instr} {s : State} {x : Reg} {b f : Byte}
    (h : exec i s = .next (s.setResultAndFlag x b f)) :
    ∃ t, exec i s = .next t ∧ (x ≠ VF → t.reg x = b) ∧ t.reg VF = f ∧
      KeepsRegsBut [x, VF] s t ∧ KeepsAllBut [.v] s t := by
  refine ⟨s.setResultAndFlag x b f, h, ?result, ?flag, keepsRegsBut_setResultAndFlag s x b f,
    keepsAllBut_setResultAndFlag s x b f⟩
  case result => exact fun hne => by rw [reg_setResultAndFlag, if_neg hne, if_pos rfl]
  case flag => rw [reg_setResultAndFlag, if_pos rfl]

theorem flagOf_decide (p : Prop) [Decidable p] : flagOf (decide p) = if p then 1 else 0 := by
  simp [flagOf]

/-- Settles O16: the byte sum is the sum modulo 256, and the carry is the condition of the flag. -/
theorem addRegistersSetsCarry : Obligations.AddRegistersSetsCarry := by
  unfold Obligations.AddRegistersSetsCarry
  refine fun x y => ⟨rfl, fun s => ?_⟩
  obtain ⟨t, ht, hx, hflag, hframe⟩ := exec_setResultAndFlag (i := .addReg x y) (s := s) rfl
  exact ⟨t, ht, fun hne => by rw [hx hne, BitVec.toNat_add], hflag.trans (flagOf_decide _), hframe⟩

/-- The byte difference is the integer difference modulo 256. -/
theorem toNat_sub_eq_emod (a b : Byte) : ((a - b).toNat : Int) = ((a.toNat : Int) - b.toNat) % 256 := by
  have hb : b.toNat < 256 := b.isLt
  rw [BitVec.toNat_sub]
  omega

/-- What SUB and SUBN have in common (R127, R128): `V[p] - V[q]` in Vx, then VF is no-borrow. -/
theorem exec_difference {i : Instr} {s : State} {x p q : Reg}
    (h : exec i s = .next (s.setResultAndFlag x (s.reg p - s.reg q) (noBorrowFlag (s.reg p) (s.reg q)))) :
    ∃ t, exec i s = .next t ∧
      (x ≠ VF → ((t.reg x).toNat : Int) = (((s.reg p).toNat : Int) - (s.reg q).toNat) % 256) ∧
      t.reg VF = (if (s.reg p).toNat ≥ (s.reg q).toNat then 1 else 0) ∧
      KeepsRegsBut [x, VF] s t ∧ KeepsAllBut [.v] s t := by
  obtain ⟨t, ht, hx, hflag, hframe⟩ := exec_setResultAndFlag h
  exact ⟨t, ht, fun hne => by rw [hx hne, toNat_sub_eq_emod], hflag.trans (flagOf_decide _), hframe⟩

/-- Settles O17: both are differences, with the registers exchanged. -/
theorem subtractSetsNoBorrow : Obligations.SubtractSetsNoBorrow := by
  unfold Obligations.SubtractSetsNoBorrow
  exact fun x y => ⟨rfl, rfl, fun s => ⟨exec_difference rfl, exec_difference rfl⟩⟩

/-- `SHIFT_SOURCE` names the register that is shifted (R7). -/
theorem shiftSourceReg_eq {s : State} {x y src : Reg} (hvx : s.cfg.shiftSource = .vx → src = x)
    (hvy : s.cfg.shiftSource = .vy → src = y) : shiftSourceReg s x y = src := by
  cases h : s.cfg.shiftSource with
  | vx => rw [shiftSourceReg, h, hvx h]
  | vy => rw [shiftSourceReg, h, hvy h]

/-- The flag value of a bit is that bit's digit of the byte. -/
theorem toNat_flagOf_getLsbD (b : Byte) (k : Nat) : (flagOf (b.getLsbD k)).toNat = b.toNat / 2 ^ k % 2 := by
  rw [← Nat.toNat_testBit, BitVec.testBit_toNat, flagOf_toNat]
  cases b.getLsbD k <;> rfl

theorem toNat_shiftedOutRight (b : Byte) : (shiftedOutRight b).toNat = b.toNat % 2 := by
  rw [shiftedOutRight, toNat_flagOf_getLsbD, Nat.pow_zero, Nat.div_one]

theorem toNat_shiftedOutLeft (b : Byte) : (shiftedOutLeft b).toNat = b.toNat / 128 := by
  have hb : b.toNat < 256 := b.isLt
  rw [shiftedOutLeft, toNat_flagOf_getLsbD]
  omega

/-- Settles O18: a shift by one halves the source, and bit 0 is the remainder. -/
theorem shiftRightSetsLostBit : Obligations.ShiftRightSetsLostBit := by
  unfold Obligations.ShiftRightSetsLostBit
  refine fun x y => ⟨rfl, fun s src hvx hvy => ?_⟩
  obtain rfl := shiftSourceReg_eq hvx hvy
  obtain ⟨t, ht, hx, hflag, hframe⟩ := exec_setResultAndFlag (i := .shr x y) (s := s) rfl
  refine ⟨t, ht, ?half, by rw [hflag, toNat_shiftedOutRight], hframe⟩
  case half => exact fun hne => by rw [hx hne, BitVec.toNat_ushiftRight, Nat.shiftRight_one]

/-- Settles O19: a shift by one doubles the source modulo 256, and bit 7 is the quotient by 128. -/
theorem shiftLeftSetsLostBit : Obligations.ShiftLeftSetsLostBit := by
  unfold Obligations.ShiftLeftSetsLostBit
  refine fun x y => ⟨rfl, fun s src hvx hvy => ?_⟩
  obtain rfl := shiftSourceReg_eq hvx hvy
  obtain ⟨t, ht, hx, hflag, hframe⟩ := exec_setResultAndFlag (i := .shl x y) (s := s) rfl
  refine ⟨t, ht, ?double, by rw [hflag, toNat_shiftedOutLeft], hframe⟩
  case double => exact fun hne => by rw [hx hne, BitVec.toNat_shiftLeft, Nat.shiftLeft_eq, Nat.pow_one]

/-! ### RND (R131) -/

@[simp] theorem reg_rndWith (r : Byte) (x : Reg) (nn : Byte) (s : State) (q : Reg) :
    (rndWith r x nn s).reg q = (s.setReg x (r &&& nn)).reg q := rfl

theorem keepsAllBut_rndWith (r : Byte) (x : Reg) (nn : Byte) (s : State) :
    KeepsAllBut [.v, .draws] s (rndWith r x nn s) := by
  intro p hp
  cases p
  case v | draws => simp at hp
  case mem | key => exact fun _ => rfl
  case fb => exact fun _ _ => rfl
  all_goals exact rfl

/-- Settles O20: the draw is arbitrary, and a bit that nn lacks is lost in the mask. -/
theorem randomIsMaskedDraw : Obligations.RandomIsMaskedDraw := by
  unfold Obligations.RandomIsMaskedDraw
  refine fun x nn => ⟨rfl, fun s => ?_⟩
  have hx : (rndWith (Config.randomByte s.draws) x nn s).reg x = Config.randomByte s.draws &&& nn := by simp
  refine ⟨rndWith (Config.randomByte s.draws) x nn s, rfl, hx, ?bits, rfl, ?regs, keepsAllBut_rndWith _ x nn s⟩
  case bits => exact fun k hk => by rw [hx, BitVec.getLsbD_and, hk, Bool.and_false]
  case regs => exact fun r hr => (reg_rndWith _ x nn s r).trans (keepsRegsBut_setReg s x _ r hr)

end Sys2Proof.Machine

/-! PROOFS. Index register and memory (`42_index_memory.md` R150 to R155): the first three instructions write `I`, and ADD I
perhaps VF; the stores and the loads go through consecutive addresses from `I`, and a range that leaves memory faults at the
first address that does (R234, R239, D18). -/

namespace Sys2Proof.Machine

/-! ### The instructions that write I (R150 to R152) -/

theorem keepsAllBut_setI (s : State) (a : Word) : KeepsAllBut [.i] s (s.setI a) := by
  intro p hp
  cases p
  case i => simp at hp
  case mem | v | key => exact fun _ => rfl
  case fb => exact fun _ _ => rfl
  all_goals exact rfl

/-- Settles O21: the address is the immediate at 16 bits, and `I` alone is written. -/
theorem loadIndexSetsI : Obligations.LoadIndexSetsI := by
  unfold Obligations.LoadIndexSetsI
  exact fun nnn => ⟨rfl, fun s => ⟨s.setI (immAddr nnn), rfl, toNat_immAddr nnn, keepsAllBut_setI s _⟩⟩

theorem val_lowNibble (s : State) (x : Reg) : (lowNibble s x).val = (s.reg x).toNat % 16 := rfl

/-- Settles O23: the glyph address of the low nibble, and `I` alone is written. -/
theorem loadFontPointsAtGlyph : Obligations.LoadFontPointsAtGlyph := by
  unfold Obligations.LoadFontPointsAtGlyph
  refine fun x => ⟨rfl, fun s => ⟨s.setI (glyphAddr (lowNibble s x)), rfl, ?glyph, keepsAllBut_setI s _⟩⟩
  case glyph => rw [setI_i, toNat_glyphAddr, val_lowNibble]

theorem setsIndexFlag_eq_true_iff {s : State} {x : Reg} :
    setsIndexFlag s x = true ↔ s.cfg.addIFlag = .on ∧ s.i.toNat + (s.reg x).toNat > 0x0FFF := by
  simp [setsIndexFlag, indexSum]

theorem exec_addI_of_flag {s : State} {x : Reg} (h : setsIndexFlag s x = true) :
    exec (.addI x) s = .next ((s.setI (BitVec.ofNat 16 (indexSum s x))).setReg VF 1) := by
  simp [exec, execAddI, h]

theorem exec_addI_of_noFlag {s : State} {x : Reg} (h : ¬ setsIndexFlag s x = true) :
    exec (.addI x) s = .next (s.setI (BitVec.ofNat 16 (indexSum s x))) := by
  simp [exec, execAddI, h]

/-- Settles O22: `I` gets the sum in both cases, and the case in which VF is set is the condition of the statement. -/
theorem addIndexFlagsOverflow : Obligations.AddIndexFlagsOverflow := by
  unfold Obligations.AddIndexFlagsOverflow
  refine fun x => ⟨rfl, fun s => ?_⟩
  have hsum : (BitVec.ofNat 16 (indexSum s x)).toNat = (s.i.toNat + (s.reg x).toNat) % 65536 := BitVec.toNat_ofNat _ 16
  have hindex := keepsAllBut_setI s (BitVec.ofNat 16 (indexSum s x))
  rw [← setsIndexFlag_eq_true_iff]
  by_cases hflag : setsIndexFlag s x = true
  · exact ⟨_, exec_addI_of_flag hflag, hsum, fun _ => ⟨reg_setReg_self _ VF 1, keepsRegsBut_setReg _ VF 1⟩,
      fun hno => absurd hflag hno, (hindex.mono (by simp)).trans ((keepsAllBut_setReg _ VF 1).mono (by simp))⟩
  · exact ⟨_, exec_addI_of_noFlag hflag, hsum, fun hset => absurd hset hflag, fun _ r _ => reg_setI s _ r,
      hindex.mono (by simp)⟩

/-! ### Stores from I on (R153, R154) -/

section Stores
variable {s : State} {xs : List Byte}

/-- Stores from `I` on that all lie in memory: byte k stands at `I + k`, and nothing else changes. -/
theorem finish_storeBytes_ok (h : s.i.toNat + xs.length ≤ 0x1000) :
    ∃ t, finish (storeBytes s (dataAddr s 0) xs) = .next t ∧
      (∀ k (hk : k < xs.length), t.byteAt (dataAddr s k) = xs[k]) ∧
      KeepsBytesOutside (dataAddr s 0) xs.length s t ∧ KeepsAllBut [.mem] s t := by
  obtain ⟨t, hstore, honly, hbyte, -⟩ := storeBytes_ok xs s (dataAddr s 0) h
  refine ⟨t, by rw [hstore, finish], fun k hk => ?stored, fun b hb => ?outside, keepsAllBut_of_onlyMem honly⟩
  case stored => simp [hbyte, hk]
  case outside => rw [hbyte, dif_neg (by omega)]

/-- Stores from `I` on that leave memory: the first address out of range is `I` itself or 0x1000. -/
theorem finish_storeBytes_fault (hne : xs ≠ []) (h : 0x1000 < s.i.toNat + xs.length) :
    finish (storeBytes s (dataAddr s 0) xs) = .fault (.memoryOutOfBounds (max s.i.toNat 0x1000)) := by
  rw [storeBytes_error xs s (dataAddr s 0) hne h]
  rfl

end Stores

/-- Settles O24: the three digits, none of which eight bits cut off, are stored from `I` on, or the stores leave memory. -/
theorem storeDecimalWritesDigits : Obligations.StoreDecimalWritesDigits := by
  unfold Obligations.StoreDecimalWritesDigits
  refine fun x => ⟨rfl, fun s h => ?digits, fun s h => ?beyond⟩
  all_goals have hlen : (decimalDigits (s.reg x)).length = 3 := rfl
  case digits =>
    have hb : (s.reg x).toNat < 256 := (s.reg x).isLt
    obtain ⟨t, ht, hstored, houtside, hparts⟩ := finish_storeBytes_ok (s := s) (xs := decimalDigits (s.reg x)) (by omega)
    refine ⟨t, ht, ?hundreds, ?tens, ?ones, houtside, hparts⟩
    case hundreds => rw [hstored 0 (by omega)]; exact Nat.mod_eq_of_lt (by omega)
    case tens => rw [hstored 1 (by omega)]; exact Nat.mod_eq_of_lt (by omega)
    case ones => rw [hstored 2 (by omega)]; exact Nat.mod_eq_of_lt (by omega)
  case beyond => exact finish_storeBytes_fault (List.ne_nil_of_length_pos (by omega)) (by omega)

/-- Settles O25: V0 to Vx are stored from `I` on, or the stores leave memory. -/
theorem storeRegistersWritesRange : Obligations.StoreRegistersWritesRange := by
  unfold Obligations.StoreRegistersWritesRange
  refine fun x => ⟨rfl, fun s h => ?stored, fun s h => ?beyond⟩
  case stored =>
    obtain ⟨t, ht, honly, hstored, houtside⟩ := exec_storeRegs_next x s h
    exact ⟨t, ht, hstored, houtside, keepsAllBut_of_onlyMem honly⟩
  case beyond =>
    have hlen := length_regsThrough s x
    exact finish_storeBytes_fault (List.ne_nil_of_length_pos (by omega)) (by omega)

/-! ### Loads from I on (R155) -/

theorem exec_loadRegs_of_fetched {x : Reg} {s : State} {xs : List Byte}
    (h : fetchBytes s (dataAddr s 0) (x.val + 1) = .ok xs) : exec (.loadRegs x) s = .next (s.setRegsFrom 0 xs) := by
  simp only [exec, execLoadRegs, h]

theorem exec_loadRegs_of_unfetched {x : Reg} {s : State} {f : Fault}
    (h : fetchBytes s (dataAddr s 0) (x.val + 1) = .error f) : exec (.loadRegs x) s = .fault f := by
  simp only [exec, execLoadRegs, h, raise]

/-- LD Vx,[I] where `I + x` is in memory: register k gets the byte at `I + k`, and registers alone change (R155). -/
theorem exec_loadRegs_next (x : Reg) (s : State) (h : s.i.toNat + x.val ≤ 0xFFF) :
    ∃ t, exec (.loadRegs x) s = .next t ∧ OnlyRegsChange s t ∧
      ∀ k : Reg, k ≤ x → t.reg k = s.byteAt (dataAddr s k.val) := by
  have hfetch := fetchBytes_ok s (x.val + 1) (dataAddr s 0) (show s.i.toNat + (x.val + 1) ≤ 0x1000 by omega)
  refine ⟨_, exec_loadRegs_of_fetched hfetch, setRegsFrom_only _ s 0, fun k hk => ?loaded⟩
  case loaded =>
    have hk : k.val ≤ x.val := hk
    rw [reg_setRegsFrom _ _ _ (by simp), dif_pos (by simp; omega)]
    simp

/-- LD Vx,[I] where `I + x` is beyond memory: the first address out of range is `I` itself or 0x1000 (R234, D18). -/
theorem exec_loadRegs_fault (x : Reg) (s : State) (h : s.i.toNat + x.val > 0xFFF) :
    exec (.loadRegs x) s = .fault (.memoryOutOfBounds (max s.i.toNat 0x1000)) :=
  exec_loadRegs_of_unfetched <|
    fetchBytes_error s (x.val + 1) (dataAddr s 0) (Nat.succ_ne_zero _) (show 0x1000 < s.i.toNat + (x.val + 1) by omega)

/-- Settles O26: V0 to Vx are loaded from `I` on, or the reads leave memory. -/
theorem loadRegistersReadsRange : Obligations.LoadRegistersReadsRange := by
  unfold Obligations.LoadRegistersReadsRange
  refine fun x => ⟨rfl, fun s h => ?loaded, exec_loadRegs_fault x⟩
  case loaded =>
    obtain ⟨t, ht, honly, hloaded⟩ := exec_loadRegs_next x s h
    exact ⟨t, ht, hloaded, fun k hk => exec_loadRegs_reg_above ht hk, keepsAllBut_of_onlyRegs honly⟩

/-- Settles O27: the bytes that LD Vx,[I] reads are those LD [I],Vx has stored, for neither `I` nor memory changes in
between. -/
theorem storeThenLoadRestores : Obligations.StoreThenLoadRestores := by
  unfold Obligations.StoreThenLoadRestores
  intro x s v h
  obtain ⟨t, ht, ⟨m, rfl⟩, hstored, -⟩ := exec_storeRegs_next x s h
  obtain ⟨u, hu, ⟨w, rfl⟩, hloaded⟩ := exec_loadRegs_next x { s with mem := m, v := v } h
  exact ⟨_, _, ht, hu, fun k hk => (hloaded k hk).trans (hstored k hk), fun k hk => exec_loadRegs_reg_above hu hk, rfl⟩

end Sys2Proof.Machine

/-! PROOFS. Display (`43_display.md` R170 to R172): CLS clears the framebuffer and writes nothing else; DRW is the blit of
the sprite's rows, then VF; a second DRW finds its registers, `I` and memory as the first did, so it inverts the same pixels. -/

namespace Sys2Proof.Machine

/-! ### CLS (R170) -/

theorem keepsAllBut_setFb (s : State) (fb : Framebuffer) : KeepsAllBut [.fb] s { s with fb := fb } := by
  intro p hp
  cases p
  case fb => simp at hp
  case mem | v | key => exact fun _ => rfl
  all_goals exact rfl

/-- Settles O29: every pixel of the cleared framebuffer is 0, and the framebuffer alone is written. -/
theorem clearScreenZeroesPixels : Obligations.ClearScreenZeroesPixels := by
  unfold Obligations.ClearScreenZeroesPixels
  exact ⟨rfl, fun s => ⟨{ s with fb := Framebuffer.clear }, rfl, pixel_clear, keepsAllBut_setFb s _⟩⟩

/-! ### DRW (R171) -/

/-- The rows whose bytes are read are those up to the first clipped one, at row 32 (D20). -/
theorem spriteReadable_iff {s : State} {y0 : Fin 32} {n : Nibble} :
    s.spriteReadable y0 n ↔ ∀ q, q < n.val → y0.val + q ≤ 32 → s.i.toNat + q < 0x1000 := by
  have hy := y0.isLt
  constructor
  · rintro (hn | hlast) q hq hclip <;> omega
  · intro hread
    by_cases hn : n.val = 0
    · exact .inl hn
    · have hlast := hread (min n.val (33 - y0.val) - 1) (by omega) (by omega)
      exact .inr (by omega)

section Draw
variable {x y : Reg} {n : Nibble} {s : State}

/-- DRW of a readable sprite: the covered pixels are inverted, and VF says whether one of them was lit. -/
theorem exec_drw_of_readable (h : s.spriteReadable (spriteRow s y) n) :
    ∃ fb hit, exec (.drw x y n) s = .next { s.setReg VF (flagOf hit) with fb := fb } ∧
      (∀ r c, fb.pixel r c = (s.fb.pixel r c ^^ s.spriteCovers (spriteColumn s x) (spriteRow s y) n r c)) ∧
      (hit = true ↔
        ∃ r c, s.spriteCovers (spriteColumn s x) (spriteRow s y) n r c = true ∧ s.fb.pixel r c = true) := by
  obtain ⟨⟨fb, hit⟩, hblit, hpixel, hhit⟩ := blitRows_ok s (spriteColumn s x) (spriteRow s y) n.val 0 (s.fb, false)
    (by omega) (fun q _ hq hclip => spriteReadable_iff.1 h q (by omega) hclip)
  refine ⟨fb, hit, ?next, fun r c => ?pixel, ?hit⟩
  case next => simp only [exec, execDrw, hblit, collisionFlag]
  case pixel => rw [spriteCovers_eq]; exact hpixel r c
  case hit => simpa [spriteCovers_eq, and_assoc] using hhit

/-- DRW of an unreadable sprite: the first address out of range is `I` itself or 0x1000 (R234, D18). -/
theorem exec_drw_of_unreadable (h : ¬ s.spriteReadable (spriteRow s y) n) :
    exec (.drw x y n) s = .fault (.memoryOutOfBounds (max s.i.toNat 0x1000)) := by
  rw [spriteReadable_iff] at h
  push Not at h
  obtain ⟨q, hq, hclip, hout⟩ := h
  have hblit := blitRows_error s (spriteColumn s x) (spriteRow s y) n.val 0 (s.fb, false) (by omega)
    ⟨q, q.zero_le, by omega, hclip, hout⟩
  simp only [exec, execDrw, hblit, raise]
  rfl

end Draw

/-- Settles O30: the blit reads all its bytes or faults at the first out of range, and VF and the framebuffer alone are
written. -/
theorem drawXorsSprite : Obligations.DrawXorsSprite := by
  unfold Obligations.DrawXorsSprite
  refine fun x y n => ⟨rfl, fun s x0 y0 hx0 hy0 => ?_⟩
  obtain rfl : x0 = spriteColumn s x := Fin.ext hx0
  obtain rfl : y0 = spriteRow s y := Fin.ext hy0
  refine ⟨fun hread => ?drawn, exec_drw_of_unreadable⟩
  case drawn =>
    obtain ⟨fb, hit, hnext, hpixel, hhit⟩ := exec_drw_of_readable (x := x) hread
    have hflag := reg_setReg_self s VF (flagOf hit)
    have hregs := keepsRegsBut_setReg s VF (flagOf hit)
    have hparts : KeepsAllBut [.fb, .v] s { s.setReg VF (flagOf hit) with fb := fb } :=
      ((keepsAllBut_setReg s VF _).mono (by simp)).trans ((keepsAllBut_setFb _ fb).mono (by simp))
    refine ⟨_, hnext, hpixel, fun hlit => ?lit, fun hdark => ?dark, hregs, hparts⟩
    case lit => exact hflag.trans (congrArg flagOf (hhit.2 hlit))
    case dark => exact hflag.trans (congrArg flagOf (Bool.eq_false_iff.2 fun hset => hdark (hhit.1 hset)))

/-! ### DRW twice (R172) -/

theorem spriteReadable_congr {s t : State} (hi : t.i = s.i) (y0 : Fin 32) (n : Nibble) :
    t.spriteReadable y0 n ↔ s.spriteReadable y0 n := by
  rw [State.spriteReadable, State.spriteReadable, hi]

theorem spriteCovers_congr {s t : State} (hi : t.i = s.i) (hmem : ∀ a, t.byteAt a = s.byteAt a) (x0 : Fin 64)
    (y0 : Fin 32) (n : Nibble) (r : Fin 32) (c : Fin 64) : t.spriteCovers x0 y0 n r c = s.spriteCovers x0 y0 n r c := by
  rw [State.spriteCovers, State.spriteCovers, hi, hmem]

/-- Settles O31: the second draw covers the same pixels, for the first kept Vx, Vy, `I` and memory; a pixel the first lit is
a covered one, so the second finds it lit. -/
theorem drawTwiceRestores : Obligations.DrawTwiceRestores := by
  unfold Obligations.DrawTwiceRestores
  intro x y n s t hx hy hdraw
  have hread : s.spriteReadable (spriteRow s y) n := by
    by_contra hout
    rw [exec_drw_of_unreadable hout] at hdraw
    cases hdraw
  obtain ⟨t', hdraw', hpixel, -, -, hregs, hparts⟩ :=
    ((drawXorsSprite x y n).2 s (spriteColumn s x) (spriteRow s y) rfl rfl).1 hread
  obtain rfl : t = t' := Host.Outcome.next.inj (hdraw.symm.trans hdraw')
  have hi : t.i = s.i := hparts .i (by decide)
  have hcovers := spriteCovers_congr hi (hparts .mem (by decide)) (spriteColumn s x) (spriteRow s y) n
  have hcolumn : (spriteColumn s x).val = (t.reg x).toNat % 64 := by rw [hregs x (by simpa using hx)]; rfl
  have hrow : (spriteRow s y).val = (t.reg y).toNat % 32 := by rw [hregs y (by simpa using hy)]; rfl
  obtain ⟨u, hu, hpixel', hlit, -⟩ :=
    ((drawXorsSprite x y n).2 t _ _ hcolumn hrow).1 ((spriteReadable_congr hi _ n).2 hread)
  refine ⟨u, hu, fun r c => ?restored, ?collision⟩
  case restored => rw [hpixel', hpixel, hcovers, Bool.xor_assoc, Bool.xor_self, Bool.xor_false]
  case collision =>
    rintro ⟨r, c, hoff, hon⟩
    refine hlit ⟨r, c, ?_, hon⟩
    rw [hcovers]
    simpa [hpixel, hoff] using hon

end Sys2Proof.Machine

/-! PROOFS. Keypad and timers (`44_timers_keypad.md` R180 to R185): the skips on a key, the loads between Vx and a timer, the
instruction that closes the wait latch, and the wait that goes on until a key is released (R205, R249). -/

namespace Sys2Proof.Machine

/-! ### Instructions by their row of the table (R37) -/

/-- An instruction that draws no random byte keeps every part of the state but those of its row. -/
theorem exec_keepsAllBut {i : Instr} {s t : State} (h : exec i s = .next t) (hi : ∀ x nn, i ≠ .rnd x nn) :
    KeepsAllBut (writtenParts i) s t := by
  have hc := exec_changesOnly h
  obtain ⟨hfault, hlife, hcfg, hiter, hreports, hkey⟩ := exec_keeps_bookkeeping h
  intro p hp
  cases p
  case mem => exact byteAt_congr (not_imp_comm.1 hc.mem hp) hcfg
  case v => exact reg_congr (not_imp_comm.1 hc.v hp)
  case i => exact not_imp_comm.1 hc.i hp
  case pc => exact not_imp_comm.1 hc.pc hp
  case stack => exact not_imp_comm.1 hc.stack hp
  case dt => exact not_imp_comm.1 hc.dt hp
  case st => exact not_imp_comm.1 hc.st hp
  case fb => exact fun y x => congrArg (Framebuffer.pixel · y x) (not_imp_comm.1 hc.fb hp)
  case key => exact fun k => congrArg (fun key => key[k]) hkey
  case wait => exact not_imp_comm.1 hc.wait hp
  case draws => exact exec_draws_of_ne_rnd hi h
  case fault => exact hfault
  case cfg => exact hcfg
  case iter => exact hiter
  case reports => exact hreports
  case life => exact hlife

/-! ### Key skips, timer loads and the latch (R180 to R185) -/

/-- Settles O32: both are skips, on the two sides of whether the key of the low nibble is pressed. -/
theorem skipTestsKey : Obligations.SkipTestsKey := by
  unfold Obligations.SkipTestsKey
  refine fun x => ⟨rfl, rfl, fun s k hk => ?_⟩
  obtain rfl : lowNibble s x = k := lowNibble_eq hk
  exact ⟨exec_skip (by rw [Bool.decide_eq_true]; rfl), exec_skip (by rw [Bool.decide_eq_false]; rfl)⟩

/-- Settles O33: a load of one register, and two instructions whose row of the table is one timer. -/
theorem timerLoads : Obligations.TimerLoads := by
  unfold Obligations.TimerLoads
  exact fun x => ⟨rfl, rfl, rfl, fun s => ⟨exec_setReg rfl, ⟨_, rfl, rfl, exec_keepsAllBut (i := .ldDtVx x) rfl nofun⟩,
    ⟨_, rfl, rfl, exec_keepsAllBut (i := .ldStVx x) rfl nofun⟩⟩⟩

/-- Settles O34: the row of the table is the latch alone. -/
theorem awaitKeyClosesLatch : Obligations.AwaitKeyClosesLatch := by
  unfold Obligations.AwaitKeyClosesLatch
  exact fun x => ⟨rfl, fun s => ⟨_, rfl, rfl, exec_keepsAllBut (i := .ldVxK x) rfl nofun⟩⟩

/-! ### The wait (R205, R249) -/

@[simp] theorem waitingStep_fault (s : State) : s.waitingStep.fault = s.fault := rfl

@[simp] theorem waitingStep_wait (s : State) : s.waitingStep.wait = s.wait := rfl

@[simp] theorem waitingStep_life (s : State) : s.waitingStep.life = .started := rfl

theorem toNat_waitingStep_dt (s : State) : s.waitingStep.dt.toNat = s.dt.toNat - 1 := countDown_toNat s.dt

theorem toNat_waitingStep_st (s : State) : s.waitingStep.st.toNat = s.st.toNat - 1 := countDown_toNat s.st

theorem keepsAllBut_waitingStep (s : State) : KeepsAllBut [.dt, .st, .reports, .iter, .life] s s.waitingStep := by
  intro p hp
  cases p
  case dt | st | reports | iter | life => simp at hp
  case mem | v | key => exact fun _ => rfl
  case fb => exact fun _ _ => rfl
  all_goals exact rfl

/-- Settles O47, by induction on the number of steps: each one is the tick of a closed latch, which leaves the machine
awaiting the same key. -/
theorem keyWaitPersists : Obligations.KeyWaitPersists := by
  unfold Obligations.KeyWaitPersists
  intro n
  induction n with
  | zero => exact fun s r _ _ _ => ⟨s, rfl, rfl, rfl, .rfl⟩
  | succ n ih =>
    intro s r hfault hlife hwait
    obtain ⟨t, hrun, hdt, hst, hparts⟩ := ih s.waitingStep r (by simpa using hfault)
      (by simp) (by simpa using hwait)
    refine ⟨t, (run_succ_next n s _ (step_of_awaiting s r hfault hlife hwait)).trans hrun, ?dt, ?st,
      (keepsAllBut_waitingStep s).trans hparts⟩
    case dt => rw [hdt, toNat_waitingStep_dt]; omega
    case st => rw [hst, toNat_waitingStep_st]; omega

end Sys2Proof.Machine

/-! PROOFS. The step and the driver's operations (`46_step_and_host_ops.md` R200 to R212): how one iteration begins and ends,
the whole STEP as a run of steps, and what each operation answers and keeps. -/

namespace Sys2Proof.Machine

/-! ### How an iteration begins: the fetch and the decoded instruction (R202) -/

theorem iteration_of_decoded {s : State} {i : Instr} (hpc : s.pc.toNat ≤ 0xFFE)
    (hd : decode s.cfg.decodeMode (s.wordAt s.pc.toNat) = .ok i) :
    iteration s.beginIteration = exec i s.fetched := by
  simp only [iteration, fetch_beginIteration s hpc, beginIteration_cfg, hd]

/-- Settles O39: the fetch gives the word and the state past it, and what the instruction answers is what the step hands
on. -/
theorem stepRunsDecodedInstruction : Obligations.StepRunsDecodedInstruction := by
  unfold Obligations.StepRunsDecodedInstruction
  intro s i hrun hpc hd
  refine ⟨rfl, keepsAllBut_fetched s, fun t ht => ?next, fun f hf => ?fault⟩
  case next => rw [step_of_canRun s hrun, iteration_of_decoded hpc hd, ht]
  case fault => rw [step_of_canRun s hrun, iteration_of_decoded hpc hd, hf]

theorem iteration_of_unfetched {s : State} {f : Fault} (h : fetch s = .error f) : iteration s = .fault f := by
  simp only [iteration, h, raise]

/-- Settles O41: beginning the STEP leaves PC and memory, so the fetch is at the PC of the state before. -/
theorem stepFaultsBeyondMemory : Obligations.StepFaultsBeyondMemory := by
  unfold Obligations.StepFaultsBeyondMemory
  refine fun s hrun => ⟨fun hpc => ?beyond, fetch_beginIteration s⟩
  case beyond =>
    have hfetch := fetch_error s.beginIteration (by simpa using hpc)
    rw [step_of_canRun s hrun, iteration_of_unfetched hfetch, beginIteration_pc]

/-! ### How an iteration ends (R203, R204) -/

theorem keepsAllBut_setIter (s : State) (n : Nat) : KeepsAllBut [.iter] s { s with iter := n } := by
  intro p hp
  cases p
  case iter => simp at hp
  case mem | v | key => exact fun _ => rfl
  case fb => exact fun _ _ => rfl
  all_goals exact rfl

theorem keepsAllBut_tick (s : State) : KeepsAllBut [.dt, .st] s s.tick := by
  intro p hp
  cases p
  case dt | st => simp at hp
  case mem | v | key => exact fun _ => rfl
  case fb => exact fun _ _ => rfl
  all_goals exact rfl

/-- Settles O42: the two ways an iteration can end, the second of which is one tick. -/
theorem iterationEndTicks : Obligations.IterationEndTicks := by
  unfold Obligations.IterationEndTicks
  refine fun t => ⟨fun hw hb => ?goesOn, fun h => ?ends⟩
  case goesOn =>
    rw [endIteration_goesOn t hw hb]
    exact ⟨rfl, keepsAllBut_setIter t _⟩
  case ends =>
    rw [endIteration_ends t h]
    exact ⟨rfl, countDown_toNat t.dt, countDown_toNat t.st,
      ((keepsAllBut_tick t).mono (by simp)).trans ((keepsAllBut_setIter t.tick 0).mono (by simp))⟩

/-! ### The machines on which no instruction runs (R205, R206, R210) -/

/-- Settles O43: the step is the tick of a closed latch. -/
theorem stepWhileAwaitingOnlyTicks : Obligations.StepWhileAwaitingOnlyTicks := by
  unfold Obligations.StepWhileAwaitingOnlyTicks
  exact fun s r hf hl hw => ⟨s.waitingStep, step_of_awaiting s r hf hl hw, toNat_waitingStep_dt s, toNat_waitingStep_st s,
    rfl, rfl, keepsAllBut_waitingStep s⟩

theorem step_of_loadFailed {s : State} (hf : s.fault = none) (hl : s.life = .loadFailed) :
    step s = .refused .notStarted := by
  simp only [step, hf, hl, if_true]

theorem wholeStep_of_faulted {s : State} {f : Fault} (h : s.fault = some f) : wholeStep s = .fault f := by
  simp only [wholeStep, h, raise]

theorem wholeStep_of_loadFailed {s : State} (hf : s.fault = none) (hl : s.life = .loadFailed) :
    wholeStep s = .refused .notStarted := by
  simp only [wholeStep, hf, hl, if_true]

theorem wholeStep_of_awaiting {s : State} {r : Reg} (hf : s.fault = none) (hl : s.life ≠ .loadFailed)
    (hw : s.wait = .awaitingKey r) : wholeStep s = .next s.beginStep.tick := by
  simp only [wholeStep, hf, hl, hw, if_false]

theorem wholeStep_of_canRun {s : State} (h : s.CanRun) : wholeStep s = batchFrom s.cfg.batch s.beginStep := by
  obtain ⟨hf, hl, hw⟩ := h
  simp only [wholeStep, hf, hl, hw, if_false]

/-- Settles O44: both the step and the STEP look at the fault latch first and at a failed LOAD next. -/
theorem stoppedMachineStaysStopped : Obligations.StoppedMachineStaysStopped := by
  unfold Obligations.StoppedMachineStaysStopped
  exact ⟨fun s f h => ⟨step_of_faulted s f h, wholeStep_of_faulted h⟩,
    fun s hf hl => ⟨step_of_loadFailed hf hl, wholeStep_of_loadFailed hf hl⟩⟩

/-! ### The whole STEP as a run of steps (R201, log 1) -/

theorem run_one (s : State) : Host.Core.run core 1 s = step s := by
  cases h : step s with
  | next t => exact run_succ_next 0 s t h
  | fault f => exact run_succ_fault 0 s f h
  | refused r => exact run_succ_refused 0 s r h

theorem exists_run_of_step {n : Nat} {s : State} {o : Result} (hn : 1 ≤ n) (h : step s = o) :
    ∃ k, 1 ≤ k ∧ k ≤ n ∧ Host.Core.run core k s = o :=
  ⟨1, Nat.le_refl 1, hn, (run_one s).trans h⟩

/-- Between STEPs the count of iterations is 0 already, so ending the waiting STEP is the tick alone (R205). -/
theorem waitingStep_eq {s : State} (h0 : s.iter = 0) : s.waitingStep = s.beginStep.tick := by
  rw [State.waitingStep, ← h0]
  rfl

theorem AtBatchPoint.step_refused {left : Nat} {s t : State} {r : Refusal} (h : AtBatchPoint left s t)
    (hi : iteration t = .refused r) : step s = .refused r := by
  rw [step_of_canRun s h.canRun, h.iteration_eq, hi]; rfl

/-- Where the batch has no iteration after this one, because it closed the latch or was the last, both tick and end the
STEP. -/
theorem AtBatchPoint.step_last {left : Nat} {s t v : State} (h : AtBatchPoint left s t) (ht : t.iter = 0)
    (hi : iteration t = .next v) (hlast : v.wait ≠ .running ∨ s.cfg.batch ≤ s.iter + 1) : step s = .next v.tick := by
  obtain ⟨-, -, hcfg, hiter, -⟩ := iteration_keeps_bookkeeping hi
  have hend : ({ v with iter := s.iter } : State).endIteration = v.tick := by
    rw [endIteration_ends { v with iter := s.iter } (by simpa only [hcfg, ← h.cfg_eq] using hlast), ← ht, ← hiter]
    rfl
  rw [step_of_canRun s h.canRun, h.iteration_eq, hi]
  exact congrArg Host.Outcome.next hend

section Batch

variable {left : Nat} {t v : State}

theorem batchFrom_of_fault {f : Fault} (hi : iteration t = .fault f) : batchFrom (left + 1) t = .fault f := by
  simp only [batchFrom, hi]

theorem batchFrom_of_refused {r : Refusal} (hi : iteration t = .refused r) : batchFrom (left + 1) t = .refused r := by
  simp only [batchFrom, hi]

theorem batchFrom_goesOn (hi : iteration t = .next v) (hw : v.wait = .running) :
    batchFrom (left + 1) t = batchFrom left v := by
  rw [batchFrom, hi]
  exact if_pos hw

theorem batchFrom_closes (hi : iteration t = .next v) (hw : v.wait ≠ .running) :
    batchFrom (left + 1) t = .next v.tick := by
  rw [batchFrom, hi]
  exact if_neg hw

end Batch

/-- The rest of a batch is a run of at least one step and at most as many as it has iterations left. -/
theorem batchFrom_eq_run : ∀ (left : Nat) {s t : State}, AtBatchPoint (left + 1) s t → s.iter + (left + 1) = s.cfg.batch →
    t.iter = 0 → ∃ k, 1 ≤ k ∧ k ≤ left + 1 ∧ Host.Core.run core k s = batchFrom (left + 1) t
  | left, s, t, hp, hleft, ht => by
    have one := fun h => exists_run_of_step (s := s) (o := batchFrom (left + 1) t) (Nat.le_add_left 1 left) h
    cases hi : iteration t with
    | fault f => exact one ((hp.step_fault hi).trans (batchFrom_of_fault hi).symm)
    | refused r => exact one ((hp.step_refused hi).trans (batchFrom_of_refused hi).symm)
    | next v =>
      by_cases hw : v.wait = .running
      · cases left with
        | zero => exact one ((hp.step_last ht hi (.inr hleft.ge)).trans (batchFrom_goesOn (left := 0) hi hw).symm)
        | succ left =>
          obtain ⟨hstep, hp'⟩ := hp.step_next hi hw
          obtain ⟨-, -, hcfg, hiter, -⟩ := iteration_keeps_bookkeeping hi
          have hleft' : s.iter + 1 + (left + 1) = v.cfg.batch := by rw [hcfg, ← hp.cfg_eq]; omega
          obtain ⟨k, -, hkl, hrun⟩ := batchFrom_eq_run left hp' hleft' (hiter.trans ht)
          exact ⟨k + 1, Nat.le_add_left 1 k, Nat.succ_le_succ hkl,
            (run_succ_next k s _ hstep).trans (hrun.trans (batchFrom_goesOn hi hw).symm)⟩
      · exact one ((hp.step_last ht hi (.inl hw)).trans (batchFrom_closes hi hw).symm)

/-- Settles O45: where an instruction runs, the batch is a run of steps; where none does, the STEP is one step. -/
theorem wholeStepIsRunOfSteps : Obligations.WholeStepIsRunOfSteps := by
  unfold Obligations.WholeStepIsRunOfSteps
  intro s h0 hb
  have one := fun h => exists_run_of_step (s := s) (o := wholeStep s) hb h
  cases hf : s.fault with
  | some f => exact one (by rw [step_of_faulted s f hf, wholeStep_of_faulted hf])
  | none =>
    by_cases hl : s.life = .loadFailed
    · exact one (by rw [step_of_loadFailed hf hl, wholeStep_of_loadFailed hf hl])
    · cases hw : s.wait with
      | awaitingKey r =>
        exact one (by rw [step_of_awaiting s r hf hl hw, wholeStep_of_awaiting hf hl hw, waitingStep_eq h0])
      | running =>
        have hp := atBatchPoint_beginStep ⟨hf, hl, hw⟩ h0
        rw [wholeStep_of_canRun ⟨hf, hl, hw⟩]
        obtain ⟨left, hleft⟩ := Nat.exists_eq_add_of_le' hb
        rw [hleft] at hp ⊢
        exact batchFrom_eq_run left hp (by omega) h0

/-! ### What the operations answer between STEPs (R200, R213) -/

section BetweenSteps

variable {s : State} (h0 : s.iter = 0)
include h0

theorem perform_load (bytes : List Byte) : perform (.load bytes) s = performLoad bytes s :=
  if_neg (not_not_intro h0)

theorem perform_step : perform .step s = performStep s :=
  if_neg (not_not_intro h0)

theorem perform_reset {p : Config.Params} (hp : p.wf = true) :
    perform (.reset p) s = .answered .done { State.resetWith p with draws := s.draws } :=
  (if_neg (not_not_intro h0)).trans (if_pos hp)

variable (hl : s.life ≠ .loadFailed)
include hl

theorem perform_setKey (k : Nibble) (p : Bool) : perform (.setKey k p) s = .answered .done (s.setKey k p).settle :=
  (if_neg (not_not_intro h0)).trans (if_neg hl)

theorem perform_readFb : perform .readFb s = .answered (.framebuffer s.fb) s :=
  (if_neg (not_not_intro h0)).trans (if_neg hl)

theorem perform_readSt : perform .readSt s = .answered (.soundTimer s.st) s :=
  (if_neg (not_not_intro h0)).trans (if_neg hl)

end BetweenSteps

/-- Settles O53: both reads answer the cell and the same machine. -/
theorem readsReturnScreenAndTone : Obligations.ReadsReturnScreenAndTone := by
  unfold Obligations.ReadsReturnScreenAndTone
  exact fun s h0 hl => ⟨perform_readFb h0 hl, perform_readSt h0 hl, decide_eq_true_iff⟩

/-! ### LOAD (R210) -/

theorem fits_iff {bytes : List Byte} : Rom.fits bytes = true ↔ bytes.length ≤ 3584 := decide_eq_true_iff

theorem performLoad_fits {bytes : List Byte} {s : State} (hc : s.life = .constructed) (hb : bytes.length ≤ 3584) :
    performLoad bytes s = .answered .done (s.loadRom bytes) := by
  rw [performLoad, if_neg (not_not_intro hc), if_pos (fits_iff.2 hb)]

theorem performLoad_tooLarge {bytes : List Byte} {s : State} (hc : s.life = .constructed) (hb : 3584 < bytes.length) :
    performLoad bytes s = .answered .romTooLarge (s.loadRejected bytes) := by
  rw [performLoad, if_neg (not_not_intro hc), if_neg (mt fits_iff.1 (Nat.not_le.2 hb))]

theorem performLoad_late {bytes : List Byte} {s : State} (hc : s.life ≠ .constructed) :
    performLoad bytes s = .refused .loadOutOfOrder :=
  if_pos hc

theorem keepsAllBut_setLife (s : State) (l : Life) : KeepsAllBut [.life] s { s with life := l } := by
  intro p hp
  cases p
  case life => simp at hp
  case mem | v | key => exact fun _ => rfl
  case fb => exact fun _ _ => rfl
  all_goals exact rfl

/-- An accepted LOAD puts each byte of the image at its place from 0x200 on and leaves every other byte. -/
theorem byteAt_loadRom (s : State) (bytes : List Byte) (b : Nat) :
    (s.loadRom bytes).byteAt b = if h : 0x200 ≤ b ∧ b < 0x200 + bytes.length then bytes[b - 0x200] else s.byteAt b := by
  obtain ⟨-, hbyte, -⟩ := setBytesFrom_spec bytes s Config.loadBase
  exact hbyte b

theorem keepsAllBut_loadRom (s : State) (bytes : List Byte) : KeepsAllBut [.mem, .life] s (s.loadRom bytes) := by
  obtain ⟨hmem, -⟩ := setBytesFrom_spec bytes s Config.loadBase
  exact ((keepsAllBut_of_onlyMem hmem).mono (by simp)).trans ((keepsAllBut_setLife _ _).mono (by simp))

/-- Settles O50: LOAD looks at the history, then at the length of the image; the accepted one is stored byte by byte. -/
theorem loadPlacesImage : Obligations.LoadPlacesImage := by
  unfold Obligations.LoadPlacesImage
  refine fun bytes s h0 => ⟨fun hc hb => ?fits, fun hc hb => ?tooLarge, fun hc => ?late⟩
  case fits =>
    refine ⟨s.loadRom bytes, (perform_load h0 bytes).trans (performLoad_fits hc hb), fun k hk => ?_, fun b hb => ?_,
      keepsAllBut_loadRom s bytes⟩
    · rw [byteAt_loadRom, dif_pos (by omega)]
      simp
    · rw [byteAt_loadRom, dif_neg (by omega)]
  case tooLarge => exact ⟨s.loadRejected bytes, (perform_load h0 bytes).trans (performLoad_tooLarge hc hb), rfl⟩
  case late => exact (perform_load h0 bytes).trans (performLoad_late hc)

/-! ### SET_KEY (R208, R209) -/

theorem keepsAllBut_setKey (s : State) (k : Nibble) (p : Bool) : KeepsAllBut [.key, .v, .wait] s (s.setKey k p) := by
  intro q hq
  cases q
  case key | v | wait => simp at hq
  case mem => exact byteAt_congr (setKey_mem s k p) (setKey_cfg s k p)
  all_goals simp [Part.same]

/-- A report that ends no wait, because the key is pressed or nothing waits, changes the keypad only. -/
theorem setKey_of_noRelease {s : State} {k : Nibble} {p : Bool} (h : p = true ∨ s.wait = .running) :
    s.setKey k p = { s with key := s.key.set k p } := by
  cases p with
  | true => exact setKey_pressed s k
  | false => exact setKey_released_running s k (h.resolve_left Bool.false_ne_true)

/-- Settles O52: the report sets the key; a release on a closed latch loads the awaited register and opens the latch, and
any other report does neither. -/
theorem setKeyAndRelease : Obligations.SetKeyAndRelease := by
  unfold Obligations.SetKeyAndRelease
  intro k p s h0 hf hl
  have hanswer : perform (.setKey k p) s = .answered .done (s.setKey k p) := by
    rw [perform_setKey h0 hl, settle_running _ ((setKey_fault s k p).trans hf)]
  refine ⟨s.setKey k p, hanswer, fun j => pressed_setKey s k j p, fun r hp hw => ?release, fun h => ?noRelease,
    keepsAllBut_setKey s k p⟩
  case release =>
    subst hp
    rw [setKey_released_awaiting s k r hw]
    refine ⟨rfl, ?_, keepsRegsBut_setReg s r _⟩
    show ((s.setReg r (BitVec.ofNat 8 k.val)).reg r).toNat = k.val
    rw [reg_setReg_self, BitVec.toNat_ofNat]
    omega
  case noRelease =>
    rw [setKey_of_noRelease h]
    exact ⟨rfl, fun r _ => rfl⟩

/-! ### What an answered operation does to the machine -/

/-- What an answered operation makes of the machine `s` (R200, R201, R206, R208, R210, R260). -/
inductive OpMove (s : State) : DriverOp → State → Prop where
  | reset {p : Config.Params} (hp : p.wf = true) : OpMove s (.reset p) { State.resetWith p with draws := s.draws }
  | load {bytes : List Byte} (hc : s.life = .constructed) (hb : Rom.fits bytes = true) :
    OpMove s (.load bytes) (s.loadRom bytes)
  | reject {bytes : List Byte} (hc : s.life = .constructed) (hb : ¬ Rom.fits bytes = true) :
    OpMove s (.load bytes) (s.loadRejected bytes)
  | stepped {t : State} (hs : wholeStep s = .next t) : OpMove s .step t
  | faulted {f : Fault} (hf : s.fault = none) (hs : wholeStep s = .fault f) :
    OpMove s .step ((batchReach s.cfg.batch s.beginStep).latchFault f)
  | stillFaulted {f : Fault} (hf : s.fault = some f) : OpMove s .step s
  | setKey {k : Nibble} {p : Bool} : OpMove s (.setKey k p) (s.setKey k p).settle
  | readFb : OpMove s .readFb s
  | readSt : OpMove s .readSt s

theorem opMove_of_performLoad {bytes : List Byte} {s t : State} {r : Reply} (h : performLoad bytes s = .answered r t) :
    OpMove s (.load bytes) t := by
  by_cases hc : s.life = .constructed
  · have h := answered_of_guarded h
    split at h <;> cases h
    · exact .load hc ‹_›
    · exact .reject hc ‹_›
  · rw [performLoad_late hc] at h
    cases h

/-- Every answered operation is one of these moves. -/
theorem opMove_of_answered {op : DriverOp} {s t : State} {r : Reply} (h : perform op s = .answered r t) :
    OpMove s op t := by
  cases op with
  | reset p =>
    have h : performReset p s = .answered r t := answered_of_guarded h
    rw [performReset] at h
    split at h <;> cases h
    exact .reset ‹_›
  | load bytes => exact opMove_of_performLoad (answered_of_guarded h)
  | step =>
    rcases performStep_cases (answered_of_guarded h) with ⟨f, hf, rfl⟩ | ⟨hs, -⟩ | ⟨f, hf, hs, rfl⟩
    · exact .stillFaulted hf
    · exact .stepped hs
    · exact .faulted hf hs
  | setKey k p => exact perform_setKey_answered h ▸ .setKey
  | readFb =>
    have h : OpOutcome.answered (.framebuffer s.fb) s = .answered r t := answered_of_guarded (answered_of_guarded h)
    cases h; exact .readFb
  | readSt =>
    have h : OpOutcome.answered (.soundTimer s.st) s = .answered r t := answered_of_guarded (answered_of_guarded h)
    cases h; exact .readSt

/-! ### After RomTooLarge and after a fatal fault (R206, R210) -/

/-- Settles O51: LOAD is late, a STEP has not been started, and the other operations are guarded. -/
theorem onlyResetAfterRomTooLarge : Obligations.OnlyResetAfterRomTooLarge := by
  unfold Obligations.OnlyResetAfterRomTooLarge
  refine fun s h0 hf hl => ⟨fun op hop => ?refused, fun p hp => perform_reset h0 hp⟩
  case refused =>
    cases op with
    | reset p => exact absurd rfl (hop p)
    | load bytes => exact ⟨_, (perform_load h0 bytes).trans (performLoad_late (by simp [hl]))⟩
    | step => exact ⟨.notStarted, by simp only [perform_step h0, performStep, hf, wholeStep_of_loadFailed hf hl]⟩
    | setKey | readFb | readSt => exact ⟨.notStarted, (if_neg (not_not_intro h0)).trans (if_pos hl)⟩

theorem performStep_of_faulted {s : State} {f : Fault} (h : s.fault = some f) :
    performStep s = .answered (.faulted f) s := by
  simp only [performStep, h]

theorem performStep_of_fault {s : State} {f : Fault} (hf : s.fault = none) (h : wholeStep s = .fault f) :
    performStep s = .answered (.faulted f) ((batchReach s.cfg.batch s.beginStep).latchFault f) := by
  simp only [performStep, hf, h]

/-- R34: on a faulted machine no answered operation but RESET changes FAULT. -/
theorem OpMove.keeps_fault {op : DriverOp} {s t : State} {f : Fault} (h : OpMove s op t) (hf : s.fault = some f)
    (hop : ∀ p, op ≠ .reset p) : t.fault = some f := by
  cases h with
  | reset hp => exact absurd rfl (hop _)
  | load => exact (keepsAllBut_loadRom s _ .fault (by simp)).trans hf
  | reject => exact hf
  | stepped hs => rw [wholeStep_of_faulted hf] at hs; cases hs
  | faulted hnone => rw [hf] at hnone; cases hnone
  | setKey => rw [settle_faulted _ f ((setKey_fault s _ _).trans hf), latchFault_fault]
  | stillFaulted | readFb | readSt => exact hf

/-- Settles O55: the STEP leaves a latched machine that has been started; on such a machine each operation is answered or
refused by its guards, and keeps the latch unless it is RESET. -/
theorem fatalFaultLatches : Obligations.FatalFaultLatches := by
  unfold Obligations.FatalFaultLatches
  refine ⟨fun s f h0 hf hs => ?latched, fun op s t r f hf hop h => (opMove_of_answered h).keeps_fault hf hop⟩
  case latched =>
    obtain ⟨-, hlife, hcfg, -⟩ := batchReach_keeps_bookkeeping s.cfg.batch s.beginStep
    have hstep := (perform_step h0).trans (performStep_of_fault hf hs)
    generalize batchReach s.cfg.batch s.beginStep = u at hlife hcfg hstep
    have hstarted : (u.latchFault f).life = .started := hlife
    have hl : (u.latchFault f).life ≠ .loadFailed := by rw [hstarted]; decide
    have h0' := latchFault_iter f u
    refine ⟨u.latchFault f, hstep, rfl, hcfg, (perform_step h0').trans (performStep_of_faulted rfl),
      fun bytes => (perform_load h0' bytes).trans (performLoad_late (by rw [hstarted]; decide)), fun k p => ?setKey,
      perform_readFb h0' hl, perform_readSt h0' hl, fun p hp => perform_reset h0' hp⟩
    case setKey => exact ⟨_, perform_setKey h0' hl k p, OpMove.setKey.keeps_fault (latchFault_fault f u) nofun⟩

/-! ### The invariant through an operation (R37, R200) -/

theorem run_keeps_inv : ∀ (k : Nat) {s t : State}, s.Inv → Host.Core.run core k s = .next t → t.Inv
  | 0, s, t, hs, h => by cases h; exact hs
  | k + 1, s, t, hs, h => by
    cases hstep : step s with
    | next u => exact run_keeps_inv k (stepKeepsInvariant s u hs hstep) (run_succ_next k s u hstep ▸ h)
    | fault f => rw [run_succ_fault k s f hstep] at h; cases h
    | refused r => rw [run_succ_refused k s r hstep] at h; cases h

/-- A whole STEP keeps the invariant, for it is a run of steps. -/
theorem wholeStep_keeps_inv {s t : State} (h0 : s.iter = 0) (hs : s.Inv) (h : wholeStep s = .next t) : t.Inv := by
  obtain ⟨hf, hl, -⟩ := wholeStep_next_cases h
  obtain ⟨k, -, -, hrun⟩ := wholeStepIsRunOfSteps s h0 (batch_pos_of_wf (hs hf hl).params)
  exact run_keeps_inv k hs (hrun.trans h)

/-- An image that fits lies within memory, and LOAD writes nothing else. -/
theorem State.Sound.loadRom {s : State} {bytes : List Byte} (hs : s.Sound) (h0 : s.iter = 0) (hb : Rom.fits bytes = true) :
    (s.loadRom bytes).Sound := by
  obtain ⟨⟨m, hm⟩, -, hwf⟩ := setBytesFrom_spec bytes s Config.loadBase
  have hlen := fits_iff.1 hb
  have hmem := hwf (by simp [Config.loadBase]; omega) hs.memory
  rw [State.loadRom]
  rw [hm] at hmem ⊢
  exact { hs with memory := hmem, lifeStarted := absurd h0 }

/-- SET_KEY writes no part that the invariant bounds. -/
theorem State.Sound.setKey {s : State} (hs : s.Sound) (h0 : s.iter = 0) (k : Nibble) (p : Bool) : (s.setKey k p).Sound where
  params := by simpa using hs.params
  memory := by simpa using hs.memory
  pcBound := by simpa using hs.pcBound
  stackBound := by simpa [State.sp] using hs.stackBound
  stackCells := by simpa using hs.stackCells
  iterBound := by simpa using hs.iterBound
  waitBetween := fun _ => (setKey_iter s k p).trans h0
  reportsBound := by simpa using hs.reportsBound
  lifeStarted := by simpa using hs.lifeStarted

/-- Settles O58: RESET gives a sound state, LOAD and SET_KEY keep soundness, a STEP is a run of steps, and after a fault or
a rejected image the invariant asks nothing. -/
theorem operationsKeepInvariant : Obligations.OperationsKeepInvariant := by
  unfold Obligations.OperationsKeepInvariant
  intro op s t r hs h
  have h0 : s.iter = 0 := by
    by_contra hne
    rw [perform_refused_of_iter_ne_zero op hne] at h
    cases h
  cases opMove_of_answered h with
  | reset hp => exact fun _ _ => { resetWith_sound hp with }
  | load hc hb =>
    intro hf _
    have hf : s.fault = none := (keepsAllBut_loadRom s _ .fault (by simp)).symm.trans hf
    exact (hs hf (by simp [hc])).loadRom h0 hb
  | reject => exact fun _ hl => absurd rfl hl
  | stepped hstep => exact wholeStep_keeps_inv h0 hs hstep
  | faulted => exact nofun
  | @setKey k p =>
    cases hf : s.fault with
    | none =>
      rw [settle_running _ ((setKey_fault s k p).trans hf)]
      exact fun _ hl => (hs hf (setKey_life s k p ▸ hl)).setKey h0 k p
    | some f =>
      rw [settle_faulted _ f ((setKey_fault s k p).trans hf)]
      exact nofun
  | stillFaulted | readFb | readSt => exact hs

end Sys2Proof.Machine

/-! PROOFS. Faults and reports (`60_exceptions.md` R230 to R241): an instruction goes on or raises a fault of its own, the
fetch faults where the word at PC leaves memory, and an unknown word is reported. -/

namespace Sys2Proof.Machine

/-! ### Which instruction can raise what (R234, R236) -/

/-- The rows of R236's table: an instruction, and a fault it can raise. -/
inductive CanRaise : Instr → Fault → Prop where
  | ret : CanRaise .ret .stackUnderflow
  | call (nnn : Addr12) : CanRaise (.call nnn) .stackOverflow
  | drw (x y : Reg) (n : Nibble) {a : Nat} (h : 0xFFF < a) : CanRaise (.drw x y n) (.memoryOutOfBounds a)
  | ldB (x : Reg) {a : Nat} (h : 0xFFF < a) : CanRaise (.ldB x) (.memoryOutOfBounds a)
  | storeRegs (x : Reg) {a : Nat} (h : 0xFFF < a) : CanRaise (.storeRegs x) (.memoryOutOfBounds a)
  | loadRegs (x : Reg) {a : Nat} (h : 0xFFF < a) : CanRaise (.loadRegs x) (.memoryOutOfBounds a)

/-- Everything an instruction can answer: it goes on, or it raises a fault of its row of R236. -/
theorem exec_next_or_fault (i : Instr) (s : State) :
    (∃ t, exec i s = .next t) ∨ ∃ f, exec i s = .fault f ∧ CanRaise i f := by
  have hbeyond : 0xFFF < max s.i.toNat 0x1000 := lt_max_of_lt_right (by decide)
  cases i
  case ret =>
    cases hs : s.stack with
    | nil => exact .inr ⟨_, exec_ret_of_nil hs, .ret⟩
    | cons a rest => exact .inl ⟨_, exec_ret_of_cons hs⟩
  case call nnn =>
    rcases lt_or_ge s.sp s.cfg.stackDepth with hroom | hfull
    · exact .inl ⟨_, exec_call_of_room hroom⟩
    · exact .inr ⟨_, exec_call_of_full hfull, .call nnn⟩
  case drw x y n =>
    by_cases hread : s.spriteReadable (spriteRow s y) n
    · obtain ⟨fb, hit, hnext, -⟩ := exec_drw_of_readable (x := x) hread
      exact .inl ⟨_, hnext⟩
    · exact .inr ⟨_, exec_drw_of_unreadable hread, .drw x y n hbeyond⟩
  case ldB x =>
    obtain ⟨-, hstored, hfault⟩ := storeDecimalWritesDigits x
    rcases le_or_gt (s.i.toNat + 2) 0xFFF with hin | hout
    · exact .inl ((hstored s hin).imp fun _ => And.left)
    · exact .inr ⟨_, hfault s hout, .ldB x hbeyond⟩
  case storeRegs x =>
    obtain ⟨-, hstored, hfault⟩ := storeRegistersWritesRange x
    rcases le_or_gt (s.i.toNat + x.val) 0xFFF with hin | hout
    · exact .inl ((hstored s hin).imp fun _ => And.left)
    · exact .inr ⟨_, hfault s hout, .storeRegs x hbeyond⟩
  case loadRegs x =>
    obtain ⟨-, hloaded, hfault⟩ := loadRegistersReadsRange x
    rcases le_or_gt (s.i.toNat + x.val) 0xFFF with hin | hout
    · exact .inl ((hloaded s hin).imp fun _ => And.left)
    · exact .inr ⟨_, hfault s hout, .loadRegs x hbeyond⟩
  all_goals exact .inl ⟨_, rfl⟩

theorem canRaise_of_exec_fault {i : Instr} {s : State} {f : Fault} (h : exec i s = .fault f) : CanRaise i f := by
  rcases exec_next_or_fault i s with ⟨t, ht⟩ | ⟨f', hf', hraise⟩
  · cases h.symm.trans ht
  · cases h.symm.trans hf'
    exact hraise

theorem exec_ne_refused (i : Instr) (s : State) (r : Refusal) : exec i s ≠ .refused r := by
  intro h
  rcases exec_next_or_fault i s with ⟨t, ht⟩ | ⟨f, hf, -⟩
  · cases h.symm.trans ht
  · cases h.symm.trans hf

/-- The fetch faults where the second byte of the word is beyond memory, at the first byte that is (R202, D18). -/
theorem fetch_eq_error_iff {s : State} {f : Fault} :
    fetch s = .error f ↔ 0xFFE < s.pc.toNat ∧ f = .memoryOutOfBounds (max s.pc.toNat 0x1000) := by
  rcases le_or_gt s.pc.toNat 0xFFE with hin | hout
  · simp [fetch_ok s hin, hin.not_gt]
  · simp [fetch_error s hout, hout, eq_comm]

/-- Settles O35: an instruction that faults is in R236's table, none is refused, and the fetch faults in one case only. -/
theorem onlySixInstructionsFault : Obligations.OnlySixInstructionsFault := by
  unfold Obligations.OnlySixInstructionsFault
  refine ⟨fun i s f h => ?table, exec_ne_refused, fun s => ?fetchFaults, fun s f h => ?fetchFault⟩
  case table =>
    cases canRaise_of_exec_fault h with
    | ret => exact .inl ⟨rfl, rfl⟩
    | call nnn => exact .inr (.inl ⟨⟨nnn, rfl⟩, rfl⟩)
    | drw x y n ha => exact .inr (.inr ⟨.inl ⟨x, y, n, rfl⟩, _, ha, rfl⟩)
    | ldB x ha => exact .inr (.inr ⟨.inr (.inl ⟨x, rfl⟩), _, ha, rfl⟩)
    | storeRegs x ha => exact .inr (.inr ⟨.inr (.inr (.inl ⟨x, rfl⟩)), _, ha, rfl⟩)
    | loadRegs x ha => exact .inr (.inr ⟨.inr (.inr (.inr ⟨x, rfl⟩)), _, ha, rfl⟩)
  case fetchFaults => simp [fetch_eq_error_iff]
  case fetchFault =>
    obtain ⟨-, rfl⟩ := fetch_eq_error_iff.1 h
    exact ⟨_, lt_max_of_lt_right (by decide), rfl⟩

/-! ### An unknown word (R231) -/

theorem keepsAllBut_report (s : State) (w : Word) (a : Nat) : KeepsAllBut [.reports] s (s.report w a) := by
  intro p hp
  cases p
  case reports => simp at hp
  all_goals exact KeepsAllBut.rfl (s := s) _ hp

theorem fetched_reports (s : State) : s.fetched.reports = if s.iter = 0 then [] else s.reports := by
  by_cases h : s.iter = 0 <;> simp [State.fetched, State.beginIteration, h]

theorem iteration_of_unknown {s : State} {e : Reject} (hpc : s.pc.toNat ≤ 0xFFE)
    (hd : decode s.cfg.decodeMode (s.wordAt s.pc.toNat) = .error e) :
    iteration s.beginIteration = .next (s.fetched.report (s.wordAt s.pc.toNat) s.pc.toNat) := by
  simp only [iteration, fetch_beginIteration s hpc, beginIteration_cfg, hd, beginIteration_pc]

/-- Settles O40: the iteration is the fetch and one report, and it is closed like any other. -/
theorem stepReportsUnknownWord : Obligations.StepReportsUnknownWord := by
  unfold Obligations.StepReportsUnknownWord
  intro s e hrun hpc hd
  have hparts : KeepsAllBut [.pc, .reports, .life] s (s.fetched.report (s.wordAt s.pc.toNat) s.pc.toNat) :=
    (keepsAllBut_fetched s).trans ((keepsAllBut_report _ _ _).mono (by simp))
  have ⟨hfault, _, _⟩ := hrun
  refine ⟨_, ?step, rfl, ?reports, (hparts .fault (by simp)).trans hfault, hparts⟩
  case step => rw [step_of_canRun s hrun, iteration_of_unknown hpc hd]
  case reports => rw [report_reports, fetched_reports]

end Sys2Proof.Machine

/-! PROOFS. Reset and hazards (`70_reset_and_hazards.md` R267, R271): what a whole STEP keeps and how many reports it makes,
and the jump to itself, which the machine repeats for ever. -/

namespace Sys2Proof.Machine

/-! ### The whole STEP: keypad, parameters and reports (R207, R271) -/

/-- An iteration makes at most one report (R207). -/
theorem iteration_reports_length_le {s t : State} (h : iteration s = .next t) :
    t.reports.length ≤ s.reports.length + 1 := by
  rcases iteration_next_cases h with ⟨i, hi⟩ | ⟨w, rfl⟩
  · obtain ⟨-, -, -, -, hreports, -⟩ := exec_keeps_bookkeeping hi
    simp [hreports]
  · simp

/-- A batch makes at most one report for each of its iterations (R207). -/
theorem batchReach_reports_length_le : ∀ (left : Nat) (s : State),
    (batchReach left s).reports.length ≤ s.reports.length + left
  | 0, s => Nat.le_refl _
  | left + 1, s => by
    simp only [batchReach]
    cases hi : iteration s with
    | fault f | refused r => exact Nat.le_add_right _ _
    | next u =>
      have hu := iteration_reports_length_le hi
      by_cases hw : u.wait = .running
      · have hrest := batchReach_reports_length_le left u
        simp only [hw, if_true]
        omega
      · simp only [hw, if_false]
        omega

/-- Settles O46: a STEP is the tick of a closed latch, or a batch that begins with no report and ends with a tick. -/
theorem wholeStepKeepsKeypad : Obligations.WholeStepKeepsKeypad := by
  unfold Obligations.WholeStepKeepsKeypad
  intro s t h
  obtain ⟨-, -, ⟨r, -, rfl⟩ | ⟨-, rfl⟩⟩ := wholeStep_next_cases h
  · exact ⟨rfl, rfl, rfl, Nat.zero_le _⟩
  · obtain ⟨-, -, hcfg, hiter, hkey⟩ := batchReach_keeps_bookkeeping s.cfg.batch s.beginStep
    exact ⟨hkey, hcfg, hiter, by simpa using batchReach_reports_length_le s.cfg.batch s.beginStep⟩

/-! ### What a fetch and the end of an iteration keep (R202 to R204) -/

theorem KeepsAllBut.of_same {p : Part} {ps : List Part} {s t : State} (h : KeepsAllBut (p :: ps) s t)
    (hp : p.same s t) : KeepsAllBut ps s t := by
  intro q hq
  by_cases hqp : q = p
  · exact hqp ▸ hp
  · exact h q (by simp [hqp, hq])

/-- A fetch whose PC is put back has only begun the STEP. -/
theorem keepsAllBut_fetched_setPc (s : State) : KeepsAllBut [.reports, .life] s (s.fetched.setPc s.pc) :=
  ((keepsAllBut_fetched s).trans ((keepsAllBut_setPc s.fetched s.pc).mono (by simp))).of_same rfl

theorem fetched_life_ne_loadFailed {s : State} (h : s.life ≠ .loadFailed) : s.fetched.life ≠ .loadFailed := by
  by_cases h0 : s.iter = 0 <;> simp [State.fetched, h0, h]

theorem keepsAllBut_endIteration (t : State) : KeepsAllBut [.dt, .st, .iter] t t.endIteration := by
  obtain ⟨hgoesOn, hends⟩ := iterationEndTicks t
  by_cases hgo : t.wait = .running ∧ t.iter + 1 < t.cfg.batch
  · obtain ⟨-, hkeeps⟩ := hgoesOn hgo.1 hgo.2
    exact hkeeps.mono (by simp)
  · obtain ⟨-, -, -, hkeeps⟩ := hends ((not_and_or.1 hgo).imp_right Nat.le_of_not_lt)
    exact hkeeps.mono (by simp)

/-! ### The jump to itself (R267) -/

/-- R267's own test for a program that has ended: the machine can run, and the word at PC jumps to PC. -/
structure State.JumpsToItself (nnn : Addr12) (s : State) : Prop where
  canRun : s.CanRun
  inMemory : s.pc.toNat ≤ 0xFFE
  target : s.pc = immAddr nnn
  word : s.wordAt s.pc.toNat = encode (.jp nnn)

/-- The test reads no timer, and of the STEP's bookkeeping only whether a LOAD has failed. -/
theorem State.JumpsToItself.of_keepsAllBut {nnn : Addr12} {s t : State} (hs : s.JumpsToItself nnn)
    (h : KeepsAllBut [.dt, .st, .reports, .iter, .life] s t) (hlife : t.life ≠ .loadFailed) : t.JumpsToItself nnn := by
  obtain ⟨⟨hfault, -, hwait⟩, hin, htarget, hword⟩ := hs
  have hpc : t.pc = s.pc := h .pc (by simp)
  have hmem : ∀ a, t.byteAt a = s.byteAt a := h .mem (by simp)
  exact {
    canRun := ⟨(h .fault (by simp)).trans hfault, hlife, (h .wait (by simp)).trans hwait⟩
    inMemory := hpc ▸ hin
    target := hpc.trans htarget
    word := by simpa only [State.wordAt, hpc, hmem] using hword }

/-- The jump puts PC back to where the fetch found it. -/
theorem State.JumpsToItself.step {nnn : Addr12} {s : State} (hs : s.JumpsToItself nnn) :
    ∃ t, step s = .next t ∧ t.JumpsToItself nnn ∧ KeepsAllBut [.dt, .st, .reports, .iter, .life] s t := by
  obtain ⟨-, -, hnext, -⟩ := stepRunsDecodedInstruction s (.jp nnn) hs.canRun hs.inMemory (decode_of_encode_eq hs.word.symm)
  have hexec : exec (.jp nnn) s.fetched = .next (s.fetched.setPc s.pc) := by rw [hs.target]; rfl
  have hkeeps : KeepsAllBut [.dt, .st, .reports, .iter, .life] s (s.fetched.setPc s.pc).endIteration :=
    ((keepsAllBut_fetched_setPc s).mono (by simp)).trans ((keepsAllBut_endIteration _).mono (by simp))
  obtain ⟨-, hlife, -⟩ := hs.canRun
  have hlife' : (s.fetched.setPc s.pc).endIteration.life ≠ .loadFailed := by
    simpa using fetched_life_ne_loadFailed hlife
  exact ⟨_, hnext _ hexec, hs.of_keepsAllBut hkeeps hlife', hkeeps⟩

/-- The jump to itself is there again after any number of steps. -/
theorem State.JumpsToItself.run {nnn : Addr12} : ∀ (n : Nat) {s : State}, s.JumpsToItself nnn →
    ∃ t, Host.Core.run core n s = .next t ∧ t.JumpsToItself nnn ∧ KeepsAllBut [.dt, .st, .reports, .iter, .life] s t
  | 0, s, hs => ⟨s, rfl, hs, .rfl⟩
  | n + 1, s, hs => by
    obtain ⟨u, hstep, hu, hsu⟩ := hs.step
    obtain ⟨t, hrun, ht, hut⟩ := State.JumpsToItself.run n hu
    exact ⟨t, (run_succ_next n s u hstep).trans hrun, ht, hsu.trans hut⟩

/-- Settles O48: the hypotheses are R267's test, which every step keeps. -/
theorem selfJumpRepeats : Obligations.SelfJumpRepeats := by
  unfold Obligations.SelfJumpRepeats
  intro s nnn hrun hpc hnnn hword n
  have hself : s.JumpsToItself nnn := {
    canRun := hrun
    inMemory := hpc
    target := BitVec.eq_of_toNat_eq (hnnn.symm.trans (toNat_immAddr nnn).symm)
    word := hword }
  obtain ⟨t, hrun, ht, hkeeps⟩ := hself.run n
  exact ⟨t, hrun, ht.canRun, hkeeps⟩

end Sys2Proof.Machine
